-- ==== Sys2Proof/Word.lean ====
section
/-! DEFINITION. The word types of ZTDL (spec/00_scope.md R9, R10) and their plainest arithmetic. Every value of
ZTDL is unsigned (R9); a bit vector stands only for what the spec reads as bits or as a wrapping number. -/

namespace Sys2Proof

/-- A byte: 8 bits, an unsigned value 0..255 (R9). -/
abbrev Byte := BitVec 8

/-- A 32-bit word: the SHA-1 words (R150 to R154), the window operand (R7 `WINDOW_WIDTH`) and the status word (R31). -/
abbrev Word32 := BitVec 32

/-- A 64-bit word: the HOTP counter (R158) and the Unix time operand (R7 `TIME_WIDTH`). -/
abbrev Word64 := BitVec 64

/-- A millisecond clock sample of the host (R7 `NOW_WIDTH` = 32, R210). -/
abbrev Millis := BitVec 32

/-- A symbol value 0..31 of base32 (R90, R120). -/
abbrev Symbol := BitVec 5

/-- `ROTL_n(x)` on a 32-bit word (R10). -/
def rotl (n : Nat) (x : Word32) : Word32 := (x <<< n) ||| (x >>> (32 - n))

end Sys2Proof
end

