-- ==== Sys2Proof/Machine/Operands.lean ====
section
/-! DEFINITION. How numbers stand in byte strings (spec/00_scope.md R11, spec/20_memory.md R53): big-endian fields,
the byte sum, the decimal text of a code. -/

namespace Sys2Proof.Machine

open Sys2Proof

/-- `BE_n(v)`: the n-byte big-endian sequence of `v mod 256^n`, most significant byte first (R11, R53). -/
def beBytes : Nat → Nat → List Byte
  | 0, _ => []
  | n + 1, v => BitVec.ofNat 8 (v / 256 ^ n) :: beBytes n v

/-- `fromBE(s)`: the integer whose big-endian bytes are `s` (R11). -/
def fromBE (s : List Byte) : Nat := s.foldl (fun acc b => acc * 256 + b.toNat) 0

/-- `be16(hi, lo)` (R11). -/
def be16 (hi lo : Byte) : Nat := hi.toNat * 256 + lo.toNat

/-- `s[i]`, the byte i counting from 0 (R11). Past the end, which no rule reads, it is 0 (log entry 4). -/
def byteAt (s : List Byte) (i : Nat) : Byte := s.getD i 0

/-- `s[i .. i+n)`, the n bytes from offset i (R11). -/
def slice (s : List Byte) (i n : Nat) : List Byte := (s.drop i).take n

/-- `sum8(s)`: the sum of the bytes modulo 256 (R11, R76): the sum starts at 0. -/
def sum8 (s : List Byte) : Byte := s.foldl (· + ·) 0

/-- Digit k of a decimal text is the byte `0x30 + k` (R91). -/
def decDigit (k : Nat) : Byte := BitVec.ofNat 8 (0x30 + k)

/-- `dec(code, d)`: the d-byte ASCII text of `code` in base 10, most significant digit first, zero-padded on the
left (R91). -/
def decText (code : Nat) : Nat → List Byte
  | 0 => []
  | d + 1 => decDigit (code / 10 ^ d % 10) :: decText code d

/-- The one field of a command record at byte offset `off` with `n` bytes, by `fromBE` (R81). -/
def fieldNat (rec : List Byte) (off n : Nat) : Nat := fromBE (slice rec off n)

end Sys2Proof.Machine
end

