-- ==== Sys2Proof/Config.lean ====
section
/-! DEFINITION. What an instantiation of ZTDL fixes: the parameters of spec/00_scope.md R7, and the one value the
spec leaves OPEN (spec/92_eei_decisions.md row P1). -/

namespace Sys2Proof

/-- The instantiation parameters of R7, fixed when the block is built and never state (R20). The rules write the
operand widths only at their defaults; what a narrower one does is DESIGN CHOICE, log entry 6. -/
structure Config where
  /-- `RX_TIMEOUT_MS`: the receive timeout, ms, 32-bit unsigned. -/
  rxTimeoutMs : Word32
  /-- `RX_CAPACITY`: the Rx buffer's capacity in bytes (D9). -/
  rxCapacity : Nat
  /-- `B32_TEXT_MAX`: the longest base32 text of B32DEC and LDSEC (D15). -/
  b32TextMax : Nat
  /-- `B32_BYTES_MAX`: the longest byte string of B32ENC (D15). -/
  b32BytesMax : Nat
  /-- `SECRET_MAX`: the capacity of the secret register (D15). -/
  secretMax : Nat
  /-- `DIGITS_MIN`: the least legal digit count (D17). -/
  digitsMin : Nat
  /-- `DIGITS_MAX`: the greatest legal digit count (D17). -/
  digitsMax : Nat
  /-- `NOW_WIDTH`: the width of the host's millisecond clock sample, bits (D6). -/
  nowWidth : Nat
  /-- `TIME_WIDTH`: the width of the Unix time operand, bits (D19). -/
  timeWidth : Nat
  /-- `WINDOW_WIDTH`: the width of the TOTP window operand, bits (D18). -/
  windowWidth : Nat
deriving DecidableEq, Repr

/-- The parameters of this spec's hardware: the defaults of R7. -/
def Config.hardware : Config where
  rxTimeoutMs := 300
  rxCapacity := 65542
  b32TextMax := 256
  b32BytesMax := 160
  secretMax := 160
  digitsMin := 1
  digitsMax := 10
  nowWidth := 32
  timeWidth := 64
  windowWidth := 32

/-- The bytes of a `now` field of a command record (R80): 4 at the default. -/
def Config.nowBytes (c : Config) : Nat := c.nowWidth / 8

/-- The bytes of a `time` field of a command record (R80): 8 at the default. -/
def Config.timeBytes (c : Config) : Nat := c.timeWidth / 8

/-- The bytes of a `window` field of a command record (R80): 4 at the default. -/
def Config.windowBytes (c : Config) : Nat := c.windowWidth / 8

/-- An operand width that a field of whole bytes holds, up to the widest the rules have a place for (log entry 6). -/
abbrev Config.fieldWidth (widest w : Nat) : Prop := 8 ≤ w ∧ w ≤ widest ∧ w % 8 = 0

/-- The parameters under which the rules leave no case open: the Rx buffer holds the longest frame (D9), every
text LDSEC accepts decodes into the secret register (D15), the secret's length fits its u8 field and status bits
24:17 (R31, R85), B32ENC's text length fits its u16 field (R85), digit counts are at least 1 (R161), and each
operand width is whole bytes, within `RX_LAST_MS` (R25), the 8-byte counter (R158) and R80's u32 window.
DEDUCED, log entry 5; the bounds on the widths DESIGN CHOICE, log entry 6. -/
abbrev Config.wf (c : Config) : Prop :=
  65542 ≤ c.rxCapacity ∧ 5 * c.b32TextMax / 8 ≤ c.secretMax ∧ c.secretMax ≤ 255 ∧
  8 * ((c.b32BytesMax + 4) / 5) ≤ 65535 ∧ 1 ≤ c.digitsMin ∧
  Config.fieldWidth 32 c.nowWidth ∧ Config.fieldWidth 64 c.timeWidth ∧ Config.fieldWidth 32 c.windowWidth

/-- P1, OPEN: the digit count of the MCU's dynamic password less one, an uninterpreted value below 10. -/
opaque Config.unlockDigitsChoice : Fin 10

/-- `UNLOCK_DIGITS` (P1): an integer in 1..10, the value of which no document gives (log entry 7). -/
def Config.unlockDigits : Byte := BitVec.ofNat 8 (Config.unlockDigitsChoice.val + 1)

end Sys2Proof
end

