-- ==== Sys2Proof/Syntax.lean ====
section
/-! DEFINITION. The operations of ZTDL: one constructor for each row of spec/opcode_table.json
(spec/30_encoding.md R80). -/

namespace Sys2Proof

/-- An operation of ZTDL with its operands (R80, R81). An operand `n` of the spec is the length of the variable
part, so the constructor holds the byte string alone; `WellFormed` bounds its length by the width of `n`. -/
inductive Instr where
  /-- 0x01: encode bytes as base32 text (R127). -/
  | b32enc (data : List Byte)
  /-- 0x02: decode base32 text to bytes (R128). -/
  | b32dec (text : List Byte)
  /-- 0x03: load the TOTP secret from base32 text (R129). -/
  | ldsec (text : List Byte)
  /-- 0x04: compute an HOTP code from the loaded secret (R170). -/
  | hotp (d : Byte) (counter : Word64)
  /-- 0x05: compute a TOTP code from the loaded secret (R172). -/
  | totp (d : Byte) (window : Word32) (time : Word64)
  /-- 0x06: dynamic-password verification (R175). -/
  | verify (d : Byte) (flags : Byte) (window : Word32) (time : Word64) (code : List Byte)
  /-- 0x10: ingest one received byte (R201). -/
  | feed (byte : Byte) (now : Millis)
  /-- 0x11: the receive-timeout check (R209). -/
  | tick (now : Millis)
  /-- 0x12: build an outbound frame (R211). -/
  | frame (version : Byte) (cmd : Byte) (payload : List Byte)
  /-- 0x20: read the status word (R213). -/
  | status
deriving DecidableEq, Repr

end Sys2Proof
end

