-- ==== Sys2Proof/WellFormed.lean ====
section
/-! DEFINITION. Which terms of `Instr` some command record stands for: the length of a variable part fits the
width of its length field `n` (spec/30_encoding.md R80). Every other operand has exactly its field's width at
the default parameters; `operandsFit` bounds it at others. -/

namespace Sys2Proof

/-- The instruction fits the record layout of R80: `n` is a u16 for B32ENC, B32DEC, LDSEC and FRAME, a u8 for
VERIFY. -/
def Instr.WellFormed : Instr → Bool
  | .b32enc data => decide (data.length < 65536)
  | .b32dec text => decide (text.length < 65536)
  | .ldsec text => decide (text.length < 65536)
  | .hotp _ _ => true
  | .totp _ _ _ => true
  | .verify _ _ _ _ code => decide (code.length < 256)
  | .feed _ _ => true
  | .tick _ => true
  | .frame _ _ payload => decide (payload.length < 65536)
  | .status => true

/-- The operands whose widths are parameters lie within them (R7). -/
def Instr.operandsFit (cfg : Config) : Instr → Bool
  | .b32enc _ => true
  | .b32dec _ => true
  | .ldsec _ => true
  | .hotp _ _ => true
  | .totp _ window time => decide (window.toNat < 2 ^ cfg.windowWidth) && decide (time.toNat < 2 ^ cfg.timeWidth)
  | .verify _ _ window time _ =>
      decide (window.toNat < 2 ^ cfg.windowWidth) && decide (time.toNat < 2 ^ cfg.timeWidth)
  | .feed _ now => decide (now.toNat < 2 ^ cfg.nowWidth)
  | .tick now => decide (now.toNat < 2 ^ cfg.nowWidth)
  | .frame _ _ _ => true
  | .status => true

end Sys2Proof
end

