-- ==== Sys2Proof/Decode.lean ====
section
/-! DEFINITION. From command records to instructions and back (spec/30_encoding.md R79 to R83). `decode` is total on
any byte string and rejects by name; `encode` writes the record of a well-formed instruction from the same table. -/

namespace Sys2Proof

open Sys2Proof.Machine

/-- The ten opcodes (R80). -/
inductive Opcode where
  | b32enc | b32dec | ldsec | hotp | totp | verify | feed | tick | frame | status
deriving DecidableEq, Repr

/-- The opcode byte (R80). -/
def Opcode.byte : Opcode → Byte
  | .b32enc => 0x01
  | .b32dec => 0x02
  | .ldsec => 0x03
  | .hotp => 0x04
  | .totp => 0x05
  | .verify => 0x06
  | .feed => 0x10
  | .tick => 0x11
  | .frame => 0x12
  | .status => 0x20

/-- The opcode of a record's first byte; every byte not in R80's table is illegal (R83). -/
def opcodeOf (b : Byte) : Option Opcode :=
  match b.toNat with
  | 0x01 => some .b32enc
  | 0x02 => some .b32dec
  | 0x03 => some .ldsec
  | 0x04 => some .hotp
  | 0x05 => some .totp
  | 0x06 => some .verify
  | 0x10 => some .feed
  | 0x11 => some .tick
  | 0x12 => some .frame
  | 0x20 => some .status
  | _ => none

/-- How many bytes a record holds at least: through its length field `n` where it has one, else all of it
(R80, R82; under given operand widths, R7). -/
def minLength (cfg : Config) : Opcode → Nat
  | .b32enc => 3
  | .b32dec => 3
  | .ldsec => 3
  | .hotp => 10
  | .totp => 2 + cfg.windowBytes + cfg.timeBytes
  | .verify => 4 + cfg.windowBytes + cfg.timeBytes
  | .feed => 2 + cfg.nowBytes
  | .tick => 1 + cfg.nowBytes
  | .frame => 5
  | .status => 1

/-- The length field `n` of a record; 0 where the layout has none (R80). -/
def variableLength (cfg : Config) (op : Opcode) (rec : List Byte) : Nat :=
  match op with
  | .b32enc => fieldNat rec 1 2
  | .b32dec => fieldNat rec 1 2
  | .ldsec => fieldNat rec 1 2
  | .hotp => 0
  | .totp => 0
  | .verify => fieldNat rec (3 + cfg.windowBytes + cfg.timeBytes) 1
  | .feed => 0
  | .tick => 0
  | .frame => fieldNat rec 3 2
  | .status => 0

/-- The record length that the opcode and `n` give (R80, R82). -/
def recordLength (cfg : Config) (op : Opcode) (rec : List Byte) : Nat := minLength cfg op + variableLength cfg op rec

/-- The `window` field of a record at byte offset `off` (R81). -/
def windowField (cfg : Config) (rec : List Byte) (off : Nat) : Word32 :=
  BitVec.ofNat 32 (fieldNat rec off cfg.windowBytes)

/-- The `time` field of a record at byte offset `off` (R81). -/
def timeField (cfg : Config) (rec : List Byte) (off : Nat) : Word64 :=
  BitVec.ofNat 64 (fieldNat rec off cfg.timeBytes)

/-- The `now` field of a record at byte offset `off` (R81). -/
def nowField (cfg : Config) (rec : List Byte) (off : Nat) : Millis :=
  BitVec.ofNat 32 (fieldNat rec off cfg.nowBytes)

/-- The operands of a record of the right length, each at its byte offset (R80, R81). -/
def operandsOf (cfg : Config) (op : Opcode) (rec : List Byte) : Instr :=
  match op with
  | .b32enc => .b32enc (rec.drop 3)
  | .b32dec => .b32dec (rec.drop 3)
  | .ldsec => .ldsec (rec.drop 3)
  | .hotp => .hotp (byteAt rec 1) (BitVec.ofNat 64 (fieldNat rec 2 8))
  | .totp => .totp (byteAt rec 1) (windowField cfg rec 2) (timeField cfg rec (2 + cfg.windowBytes))
  | .verify => .verify (byteAt rec 1) (byteAt rec 2) (windowField cfg rec 3)
      (timeField cfg rec (3 + cfg.windowBytes)) (rec.drop (4 + cfg.windowBytes + cfg.timeBytes))
  | .feed => .feed (byteAt rec 1) (nowField cfg rec 2)
  | .tick => .tick (nowField cfg rec 1)
  | .frame => .frame (byteAt rec 1) (byteAt rec 2) (rec.drop 5)
  | .status => .status

/-- Why a record is no instruction. The status each one ends in is `rejectStatus` (R254, places 1 to 3). -/
inductive Reject where
  /-- An empty record: `ERR_FORMAT` (R82). -/
  | emptyRecord
  /-- The first byte is no opcode: `ERR_ILLEGAL_OP` (R83). -/
  | illegalOpcode
  /-- Too short to hold its length field, or its fixed fields: `ERR_FORMAT` (R82). -/
  | tooShort
  /-- Not the length its opcode and `n` give: `ERR_FORMAT` (R82). -/
  | wrongLength
deriving DecidableEq, Repr

/-- The instruction of a delivered command record under given parameters, or the first check of R254 that it
fails. -/
def decodeAt (cfg : Config) (rec : List Byte) : Except Reject Instr :=
  match rec with
  | [] => .error .emptyRecord
  | b :: _ =>
    match opcodeOf b with
    | none => .error .illegalOpcode
    | some op =>
      if rec.length < minLength cfg op then .error .tooShort
      else if rec.length ≠ recordLength cfg op rec then .error .wrongLength
      else .ok (operandsOf cfg op rec)

/-- The instruction of a delivered command record of this spec's hardware: the layouts exactly as R80 writes them. -/
def decode (rec : List Byte) : Except Reject Instr := decodeAt Config.hardware rec

/-- The opcode of an instruction (R80). -/
def opcodeOfInstr : Instr → Opcode
  | .b32enc _ => .b32enc
  | .b32dec _ => .b32dec
  | .ldsec _ => .ldsec
  | .hotp _ _ => .hotp
  | .totp _ _ _ => .totp
  | .verify _ _ _ _ _ => .verify
  | .feed _ _ => .feed
  | .tick _ => .tick
  | .frame _ _ _ => .frame
  | .status => .status

/-- The length of an instruction's variable part, its operand `n`; 0 where the layout has none (R80). -/
def variablePart : Instr → Nat
  | .b32enc data => data.length
  | .b32dec text => text.length
  | .ldsec text => text.length
  | .hotp _ _ => 0
  | .totp _ _ _ => 0
  | .verify _ _ _ _ code => code.length
  | .feed _ _ => 0
  | .tick _ => 0
  | .frame _ _ payload => payload.length
  | .status => 0

/-- The command record of an instruction under given parameters (R80): the opcode, then its operand fields,
big-endian and with no padding (R79). -/
def encodeAt (cfg : Config) : Instr → List Byte
  | .b32enc data => Opcode.byte .b32enc :: (beBytes 2 data.length ++ data)
  | .b32dec text => Opcode.byte .b32dec :: (beBytes 2 text.length ++ text)
  | .ldsec text => Opcode.byte .ldsec :: (beBytes 2 text.length ++ text)
  | .hotp d counter => Opcode.byte .hotp :: d :: beBytes 8 counter.toNat
  | .totp d window time =>
      Opcode.byte .totp :: d :: (beBytes cfg.windowBytes window.toNat ++ beBytes cfg.timeBytes time.toNat)
  | .verify d flags window time code =>
      Opcode.byte .verify :: d :: flags :: (beBytes cfg.windowBytes window.toNat ++
        (beBytes cfg.timeBytes time.toNat ++ (beBytes 1 code.length ++ code)))
  | .feed byte now => Opcode.byte .feed :: byte :: beBytes cfg.nowBytes now.toNat
  | .tick now => Opcode.byte .tick :: beBytes cfg.nowBytes now.toNat
  | .frame version cmd payload => Opcode.byte .frame :: version :: cmd :: (beBytes 2 payload.length ++ payload)
  | .status => [Opcode.byte .status]

/-- The command record of a well-formed instruction of this spec's hardware (R80). -/
def encode (i : Instr) : List Byte := encodeAt Config.hardware i

/-- The first `n` bytes of a number whose bit 0 is the least significant bit of its first byte: byte k is bits
8k+7..8k. -/
def leBytes : Nat → Nat → List Byte
  | 0, _ => []
  | n + 1, w => BitVec.ofNat 8 w :: leBytes n (w / 256)

/-- The command record whose first `nbits` bits are `w` and whose further bits are 0: as long as its opcode and `n`
give, and never shorter than `nbits`. The port delivers a record with its length (R79), so the length is found here
from the record's own bytes; for an illegal opcode it is the bytes given. -/
def recordOfWord (nbits w : Nat) : List Byte :=
  let given := (nbits + 7) / 8
  let v := w % 2 ^ nbits
  match opcodeOf (BitVec.ofNat 8 v) with
  | none => leBytes given v
  | some op => leBytes (max given (recordLength Config.hardware op (leBytes (minLength Config.hardware op) v))) v

/-- The instruction that `decode` reads from the record of a table word. -/
def decodeTableWord (nbits w : Nat) : Option Instr :=
  match decode (recordOfWord nbits w) with
  | .ok i => some i
  | .error _ => none

end Sys2Proof
end

