-- ==== Sys2Proof/Machine/State.lean ====
section
/-! DEFINITION. The state of ZTDL (spec/10_state.md R20) with the host port beside it, the state after reset, and
the reasons a step could stop. -/

namespace Sys2Proof.Machine

open Sys2Proof

/-- What the host does at the one port. A command record is delivered whole and with its length (R79); reset is
asserted by the platform, and a record in delivery at that moment is dropped without a response (R280). -/
inductive PortInput where
  /-- A whole command record. -/
  | record (bytes : List Byte)
  /-- Reset, with the record that was in delivery when it was asserted, if one was. -/
  | reset (inDelivery : Option (List Byte))
deriving DecidableEq, Repr

/-- The state: `RX_BUF`, `RX_LAST_MS` and `SECRET` are all the state the spec gives ZTDL (R20). `pending` and
`responses` are the MODEL's own (DESIGN CHOICE, log entry 1): the inputs the host has issued and the response
records ZTDL has emitted (R294). No operation reads either. -/
structure State where
  /-- `RX_BUF`, the accepted bytes of the frame in progress (R23, R51). -/
  rxBuf : List Byte
  /-- `RX_LAST_MS`, the clock sample of the last accepted byte (R25). -/
  rxLastMs : Millis
  /-- `SECRET`, the raw TOTP key bytes (R26). -/
  secret : List Byte
  /-- The port inputs not yet performed, oldest first (the model's own). -/
  pending : List PortInput
  /-- The response records emitted, oldest first, as their bytes (R84; the model's own). -/
  responses : List (List Byte)
deriving DecidableEq, Repr

/-- Every element right after reset (R35, R280), with no input waiting (R281) and no response emitted. -/
def State.reset : State where
  rxBuf := []
  rxLastMs := 0
  secret := []
  pending := []
  responses := []

/-- ZTDL has no trap and no fault: "ZTDL has no trap mechanism" (R250); every error is a status byte. So no step
ends in a fault and there is no constructor: nothing raises one, which is the spec's own word and neither a safe
nor an unsafe difference. -/
inductive Fault where
deriving DecidableEq, Repr

/-- Why an instruction could be refused. No meaning of this model refuses. -/
inductive Refusal where
  /-- An instruction without a meaning yet, raised by an arm of `exec` alone (safe: nothing can be proved of a
  run past it). No arm of this model raises it. -/
  | notModelled (mnemonic : String)
deriving DecidableEq, Repr

end Sys2Proof.Machine
end

