-- ==== Sys2Proof/Machine/Flags.lean ====
section
/-! DEFINITION. What an operation reports: status codes (spec/60_exceptions.md R251), events (spec/30_encoding.md
R86), and the derived values and status word of spec/10_state.md R27 to R31. ZTDL keeps no flags between
operations (R29): all of these are computed from the state or handed out in a response. -/

namespace Sys2Proof.Machine

open Sys2Proof

/-- The status of an operation (R251). -/
inductive Status where
  | ok
  | errIllegalOp
  | errFormat
  | errLength
  | errParam
  | errB32Symbol
  | errNoSecret
  | noAnswer
deriving DecidableEq, Repr

/-- The status byte (R251). -/
def Status.code : Status → Byte
  | .ok => 0x00
  | .errIllegalOp => 0x01
  | .errFormat => 0x02
  | .errLength => 0x03
  | .errParam => 0x04
  | .errB32Symbol => 0x05
  | .errNoSecret => 0x06
  | .noAnswer => 0x07

/-- The one event of a FEED or TICK response (R86). The payload's length is the field `n`. -/
inductive Event where
  | none
  | frameOk (version cmd : Byte) (payload : List Byte)
  | csumErr (received computed : Byte)
  | hdrDiscard (pos : Nat) (byte : Byte)
  | rxTimeout (discarded : Nat)
deriving DecidableEq, Repr

/-- The bytes of an event: its kind byte and its fields (R86), big-endian (R53). -/
def Event.bytes : Event → List Byte
  | .none => [0x00]
  | .frameOk version cmd payload => 0x01 :: version :: cmd :: (beBytes 2 payload.length ++ payload)
  | .csumErr received computed => [0x02, received, computed]
  | .hdrDiscard pos byte => [0x03, BitVec.ofNat 8 pos, byte]
  | .rxTimeout discarded => 0x04 :: beBytes 4 discarded

/-- `SECRET_VALID` (R27). -/
def State.secretValid (s : State) : Bool := decide (0 < s.secret.length)

/-- `RX_LEN` (R28). -/
def State.rxLen (s : State) : Nat := s.rxBuf.length

/-- The declared length `be16(buf[4], buf[5])` of a frame in a buffer (R28 `RX_DECLARED_LEN`, R74). -/
def declaredLen (buf : List Byte) : Nat := be16 (byteAt buf 4) (byteAt buf 5)

/-- `RX_DECLARED_LEN`, defined only while `RX_LEN >= 6` (R28). -/
def State.rxDeclaredLen (s : State) : Option Nat := if 6 ≤ s.rxLen then some (declaredLen s.rxBuf) else none

/-- `RX_SUM`, the running sum (R28). -/
def State.rxSum (s : State) : Byte := sum8 s.rxBuf

/-- `RX_EMPTY` (R30). -/
def State.rxEmpty (s : State) : Bool := decide (s.rxLen = 0)

/-- A truth value as a number of a field: 1 if true, else 0 (R31). -/
def bit (b : Bool) : Word32 := if b then 1 else 0

/-- The status word (R31, R213). -/
def State.statusWord (s : State) : Word32 :=
  BitVec.ofNat 32 s.rxLen ||| (BitVec.ofNat 32 s.secret.length <<< 17)
    ||| (bit s.secretValid <<< 25) ||| (bit s.rxEmpty <<< 26)

/-- `flags[0]` of VERIFY: `TIME_VALID` (R81). -/
def flagTimeValid (flags : Byte) : Bool := flags.getLsbD 0

/-- `flags[7:1]` of VERIFY hold a set bit: they are reserved and must be 0 (R81). -/
def flagsReservedSet (flags : Byte) : Bool := decide (flags >>> 1 ≠ 0)

/-- The VERIFY verdict byte: 0x00 match, 0x01 mismatch (R29, R175). -/
def verdictByte (isMatch : Bool) : Byte := if isMatch then 0x00 else 0x01

end Sys2Proof.Machine
end

