-- ==== Sys2Proof/Machine/Ops.lean ====
section
/-! DEFINITION. The named operations over the state that every meaning is built from: emitting a response
(spec/00_scope.md R12), ending in an error status (spec/60_exceptions.md R250), the writes of the three state
elements, and the host port (spec/30_encoding.md R79, spec/70_reset_and_hazards.md R280). -/

namespace Sys2Proof.Machine

open Sys2Proof

/-- The bytes of a response record: the status byte, then the fields (R84). -/
def responseBytes (status : Status) (fields : List Byte) : List Byte := status.code :: fields

/-- `respond(status, fields...)`: ends the operation and emits its response record (R12, R84). -/
def State.respond (s : State) (status : Status) (fields : List Byte) : State :=
  { s with responses := s.responses ++ [responseBytes status fields] }

/-- `raise Status(code)` (R12): ZTDL's whole error mechanism. A response of the status byte alone; no control
transfer, no saved state, no mode change, no write of the state (R250, R252, R256). -/
def State.raise (s : State) (status : Status) : State := s.respond status []

/-- `respond(OK, event)`: the response of FEED and TICK, with exactly one event (R86). -/
def State.emit (s : State) (ev : Event) : State := s.respond .ok ev.bytes

/-- `S.RX_BUF <- buf` (R23). -/
def State.setRxBuf (s : State) (buf : List Byte) : State := { s with rxBuf := buf }

/-- `S.RX_LAST_MS <- now` (R25, R208). -/
def State.setRxLastMs (s : State) (now : Millis) : State := { s with rxLastMs := now }

/-- `S.SECRET <- key`: replaced wholesale (R26). -/
def State.setSecret (s : State) (key : List Byte) : State := { s with secret := key }

/-- The status a rejected record ends in (R82, R83, R254). -/
def rejectStatus : Reject → Status
  | .emptyRecord => .errFormat
  | .illegalOpcode => .errIllegalOp
  | .tooShort => .errFormat
  | .wrongLength => .errFormat

/-- A record that is no instruction: its status, and no other effect (R82, R83). -/
def State.rejectRecord (s : State) (why : Reject) : State := s.raise (rejectStatus why)

/-- Reset asserted (R280): the three elements take their reset values. What the host has yet to issue, and the
responses already handed to it, are not ZTDL's to change. -/
def State.assertReset (s : State) : State := { s with rxBuf := [], rxLastMs := 0, secret := [] }

/-- The next port input, with the state after it is taken from the port; none while ZTDL waits (R281). -/
def State.takeInput (s : State) : Option (PortInput × State) :=
  match s.pending with
  | [] => none
  | input :: rest => some (input, { s with pending := rest })

/-- The port with one record before all that waits there: the next input is that record. -/
def State.offerRecord (s : State) (rec : List Byte) : State := { s with pending := .record rec :: s.pending }

/-- The host issues command records after all it issued before, in order (R60, R79). -/
def State.issue (s : State) (recs : List (List Byte)) : State :=
  { s with pending := s.pending ++ recs.map .record }

end Sys2Proof.Machine
end

