-- ==== Sys2Proof/Machine/Base32.lean ====
section
/-! DEFINITION. The base32 codec: B32ENC, B32DEC and LDSEC (spec/40_base32.md R120 to R129). -/

namespace Sys2Proof.Machine

open Sys2Proof

/-- The padding byte `=` (R90): it has no symbol value. -/
def padByte : Byte := 0x3D

/-- `symval(c)` (R120): case-insensitive; none for every byte outside the alphabet, `=` among them. -/
def symval (c : Byte) : Option Symbol :=
  let n := c.toNat
  if 0x41 ≤ n ∧ n ≤ 0x5A then some (BitVec.ofNat 5 (n - 0x41))
  else if 0x61 ≤ n ∧ n ≤ 0x7A then some (BitVec.ofNat 5 (n - 0x61))
  else if 0x32 ≤ n ∧ n ≤ 0x37 then some (BitVec.ofNat 5 (n - 0x32 + 26))
  else none

/-- `ALPHA[v]` (R90, R120): upper case only (D34). -/
def alpha (v : Symbol) : Byte :=
  if v.toNat < 26 then BitVec.ofNat 8 (0x41 + v.toNat) else BitVec.ofNat 8 (0x32 + (v.toNat - 26))

/-- The bits of a byte, most significant first (R55, R121). -/
def byteBits (b : Byte) : List Bool :=
  [b.getLsbD 7, b.getLsbD 6, b.getLsbD 5, b.getLsbD 4, b.getLsbD 3, b.getLsbD 2, b.getLsbD 1, b.getLsbD 0]

/-- The bits of a symbol value, most significant first (R123). -/
def symbolBits (v : Symbol) : List Bool :=
  [v.getLsbD 4, v.getLsbD 3, v.getLsbD 2, v.getLsbD 1, v.getLsbD 0]

/-- The number whose bits these are, most significant first (R121, R123). -/
def bitsVal (bits : List Bool) : Nat := bits.foldl (fun acc b => 2 * acc + b.toNat) 0

/-- Consecutive groups of five bits as symbol values; fewer than five bits at the end give nothing (R121). -/
def symbolGroups : List Bool → List Symbol
  | a :: b :: c :: d :: e :: rest => BitVec.ofNat 5 (bitsVal [a, b, c, d, e]) :: symbolGroups rest
  | _ => []

/-- Consecutive groups of eight bits as bytes; the 0 to 7 bits left over are dropped unexamined (R123, D14). -/
def byteGroups : List Bool → List Byte
  | a :: b :: c :: d :: e :: f :: g :: h :: rest =>
      BitVec.ofNat 8 (bitsVal [a, b, c, d, e, f, g, h]) :: byteGroups rest
  | _ => []

/-- `s = ceil(8L/5)`, the number of symbols for L bytes (R121). -/
def symbolCount (l : Nat) : Nat := (8 * l + 4) / 5

/-- `b32encode(b)` (R121): the bits, zero fill bits to a whole symbol, the symbols, `=` to a multiple of 8. -/
def b32encode (b : List Byte) : List Byte :=
  let s := symbolCount b.length
  let bits := b.flatMap byteBits ++ List.replicate (5 * s - 8 * b.length) false
  (symbolGroups bits).map alpha ++ List.replicate ((8 - s % 8) % 8) padByte

/-- The symbol values of a text without padding, or none if a byte is outside the alphabet (R123). -/
def symvals : List Byte → Option (List Symbol)
  | [] => some []
  | c :: rest =>
    match symval c with
    | none => none
    | some v =>
      match symvals rest with
      | none => none
      | some vs => some (v :: vs)

/-- `b32decode(t)` (R123): none is `FAIL`, which carries no bytes (R125). Every `=` is removed first, wherever it
stands (D13). -/
def b32decode (t : List Byte) : Option (List Byte) :=
  match symvals (t.filter (fun c => decide (c ≠ padByte))) with
  | none => none
  | some vs => some (byteGroups (vs.flatMap symbolBits))

/-- B32ENC under given parameters (R127). -/
def b32encAt (cfg : Config) (data : List Byte) (s : State) : Host.Outcome State Fault Refusal :=
  if data.length > cfg.b32BytesMax then .next (s.raise .errLength)
  else .next (s.respond .ok (beBytes 2 (b32encode data).length ++ b32encode data))

/-- B32DEC under given parameters (R128). -/
def b32decAt (cfg : Config) (text : List Byte) (s : State) : Host.Outcome State Fault Refusal :=
  if text.length > cfg.b32TextMax then .next (s.raise .errLength)
  else
    match b32decode text with
    | none => .next (s.respond .errB32Symbol (beBytes 2 0))
    | some out => .next (s.respond .ok (beBytes 2 out.length ++ out))

/-- LDSEC under given parameters (R129): a text that does not decode empties the secret, the one write of state by
an operation that ends in an error status (R252). -/
def ldsecAt (cfg : Config) (text : List Byte) (s : State) : Host.Outcome State Fault Refusal :=
  if text.length > cfg.b32TextMax then .next (s.raise .errLength)
  else
    match b32decode text with
    | none => .next ((s.setSecret []).respond .errB32Symbol [0x00, 0x00])
    | some out =>
        .next ((s.setSecret out).respond .ok [if out.length > 0 then 0x01 else 0x00, BitVec.ofNat 8 out.length])

/-- B32ENC: encode bytes as base32 text (R127). -/
def execB32enc (data : List Byte) (s : State) : Host.Outcome State Fault Refusal :=
  b32encAt Config.hardware data s

/-- B32DEC: decode base32 text to bytes (R128). -/
def execB32dec (text : List Byte) (s : State) : Host.Outcome State Fault Refusal :=
  b32decAt Config.hardware text s

/-- LDSEC: load the TOTP secret from base32 text (R129). -/
def execLdsec (text : List Byte) (s : State) : Host.Outcome State Fault Refusal :=
  ldsecAt Config.hardware text s

end Sys2Proof.Machine
end

