-- ==== Sys2Proof/Machine/Codec.lean ====
section
/-! DEFINITION. The frame codec: FEED, TICK, FRAME and STATUS (spec/42_frame_codec.md R200 to R213) over the wire
frame of spec/30_encoding.md R70 to R77. -/

namespace Sys2Proof.Machine

open Sys2Proof

/-- The judgement of one received byte (R202). -/
inductive Judgement where
  | keep
  | badHeader
  | completeOk (len : Nat)
  | completeBad (len : Nat) (computed : Byte)
deriving DecidableEq, Repr

/-- `judge(p, byte, buf)` (R202), `buf` with the byte at its end. The last two outcomes are for p = 6 + L; R24 rules
out a greater p, for which the pseudocode's last lines are followed as they stand (log entry 4). -/
def judge (p : Nat) (byte : Byte) (buf : List Byte) : Judgement :=
  if p = 0 then (if byte = 0x55 then .keep else .badHeader)
  else if p = 1 then (if byte = 0xAA then .keep else .badHeader)
  else if p ≤ 5 then .keep
  else
    let len := declaredLen buf
    if p < 6 + len then .keep
    else
      let computed := sum8 (buf.take (6 + len))
      if byte = computed then .completeOk len else .completeBad len computed

/-- The bytes of a frame before its checksum (R70): fixed header, version, command id, length, payload. -/
def frameBody (version cmd : Byte) (payload : List Byte) : List Byte :=
  [0x55, 0xAA, version, cmd] ++ beBytes 2 payload.length ++ payload

/-- A whole frame (R70, R76): the body and its checksum. -/
def frameBytes (version cmd : Byte) (payload : List Byte) : List Byte :=
  frameBody version cmd payload ++ [sum8 (frameBody version cmd payload)]

/-- The elapsed time of TICK: the difference modulo 2^NOW_WIDTH, which is 2^32 (R210; at another width
DESIGN CHOICE, log entry 6). -/
def elapsedMs (cfg : Config) (now last : Millis) : Nat := (now - last).toNat % 2 ^ cfg.nowWidth

/-- TICK under given parameters (R209): strictly greater than the timeout, and only a non-empty buffer. -/
def tickAt (cfg : Config) (now : Millis) (s : State) : Host.Outcome State Fault Refusal :=
  if elapsedMs cfg now s.rxLastMs > cfg.rxTimeoutMs.toNat ∧ s.rxBuf.length > 0 then
    .next ((s.setRxBuf []).emit (.rxTimeout s.rxBuf.length))
  else .next (s.emit .none)

/-- FEED: ingest one received byte (R201). -/
def execFeed (byte : Byte) (now : Millis) (s : State) : Host.Outcome State Fault Refusal :=
  let buf := s.rxBuf ++ [byte]
  let p := buf.length - 1
  match judge p byte buf with
  | .keep => .next (((s.setRxBuf buf).setRxLastMs now).emit .none)
  | .badHeader => .next ((s.setRxBuf []).emit (.hdrDiscard p byte))
  | .completeOk len =>
      .next ((s.setRxBuf []).emit (.frameOk (byteAt buf 2) (byteAt buf 3) (slice buf 6 len)))
  | .completeBad _ computed => .next ((s.setRxBuf []).emit (.csumErr byte computed))

/-- TICK: the receive-timeout check (R209). -/
def execTick (now : Millis) (s : State) : Host.Outcome State Fault Refusal := tickAt Config.hardware now s

/-- FRAME: build an outbound frame (R211); the receive buffer is neither read nor written (R65). -/
def execFrame (version cmd : Byte) (payload : List Byte) (s : State) : Host.Outcome State Fault Refusal :=
  .next (s.respond .ok (frameBytes version cmd payload))

/-- STATUS: read the status word and `RX_LAST_MS` (R213). -/
def execStatus (s : State) : Host.Outcome State Fault Refusal :=
  .next (s.respond .ok (beBytes 4 s.statusWord.toNat ++ beBytes 4 s.rxLastMs.toNat))

end Sys2Proof.Machine
end

