-- ==== Sys2Proof/Machine/Sha1.lean ====
section
/-! DEFINITION. The HMAC-SHA1 core (spec/41_hotp_totp.md R150 to R157, which the spec supplies from general
knowledge of FIPS 180-4 and RFC 2104, spec/92_eei_decisions.md D32). All of it is local to one operation (R33). -/

namespace Sys2Proof.Machine

open Sys2Proof

/-- The k of R150: the least k with `(l + 1 + k) mod 64 = 56`. -/
def sha1ZeroCount (l : Nat) : Nat := (119 - l % 64) % 64

/-- `pad(M)` (R150). -/
def sha1Pad (m : List Byte) : List Byte :=
  m ++ [0x80] ++ List.replicate (sha1ZeroCount m.length) 0 ++ beBytes 8 (8 * m.length)

/-- The big-endian 32-bit words of a byte string, four bytes each (R150). -/
def wordsOf : List Byte → List Word32
  | b0 :: b1 :: b2 :: b3 :: rest => BitVec.ofNat 32 (fromBE [b0, b1, b2, b3]) :: wordsOf rest
  | _ => []

/-- The next word of the message schedule from the words before it, latest first (R152, t from 16). -/
def scheduleNext (ws : List Word32) : Word32 :=
  rotl 1 (ws.getD 2 0 ^^^ ws.getD 7 0 ^^^ ws.getD 13 0 ^^^ ws.getD 15 0)

/-- The schedule continued by k words, latest first (R152). -/
def scheduleFrom : Nat → List Word32 → List Word32
  | 0, ws => ws
  | k + 1, ws => scheduleFrom k (scheduleNext ws :: ws)

/-- `W_0 .. W_79` of one block of sixteen words (R152). -/
def schedule (block : List Word32) : List Word32 := (scheduleFrom 64 block.reverse).reverse

/-- The round function `f_t` (R153). -/
def sha1F (t : Nat) (x y z : Word32) : Word32 :=
  if t < 20 then (x &&& y) ^^^ (~~~x &&& z)
  else if t < 40 then x ^^^ y ^^^ z
  else if t < 60 then (x &&& y) ^^^ (x &&& z) ^^^ (y &&& z)
  else x ^^^ y ^^^ z

/-- The round constant `K_t` (R153). -/
def sha1K (t : Nat) : Word32 :=
  if t < 20 then 0x5A827999 else if t < 40 then 0x6ED9EBA1 else if t < 60 then 0x8F1BBCDC else 0xCA62C1D6

/-- The five words `H0 .. H4`, and the working variables `a .. e` (R151, R154). -/
structure Sha1Regs where
  a : Word32
  b : Word32
  c : Word32
  d : Word32
  e : Word32
deriving DecidableEq, Repr

/-- The initial hash value (R151). -/
def sha1Init : Sha1Regs := ⟨0x67452301, 0xEFCDAB89, 0x98BADCFE, 0x10325476, 0xC3D2E1F0⟩

/-- Round t of the compression with schedule word `w` (R154). -/
def sha1Round (t : Nat) (w : Word32) (r : Sha1Regs) : Sha1Regs :=
  ⟨rotl 5 r.a + sha1F t r.b r.c r.d + r.e + sha1K t + w, r.a, rotl 30 r.b, r.c, r.d⟩

/-- The rounds from t on, one for each word given (R154). -/
def sha1Rounds : Nat → List Word32 → Sha1Regs → Sha1Regs
  | _, [], r => r
  | t, w :: ws, r => sha1Rounds (t + 1) ws (sha1Round t w r)

/-- `Hi <- (Hi + x) mod 2^32` for each of the five words (R154). -/
def sha1Add (h r : Sha1Regs) : Sha1Regs := ⟨h.a + r.a, h.b + r.b, h.c + r.c, h.d + r.d, h.e + r.e⟩

/-- The compression of one block of sixteen words (R154). -/
def sha1Compress (h : Sha1Regs) (block : List Word32) : Sha1Regs :=
  sha1Add h (sha1Rounds 0 (schedule block) h)

/-- The compression of the first n blocks of a word sequence, in order (R150, R154). -/
def sha1Blocks : Nat → List Word32 → Sha1Regs → Sha1Regs
  | 0, _, h => h
  | n + 1, ws, h => sha1Blocks n (ws.drop 16) (sha1Compress h (ws.take 16))

/-- The 20 bytes of the five words (R155). -/
def sha1Digest (h : Sha1Regs) : List Byte :=
  beBytes 4 h.a.toNat ++ beBytes 4 h.b.toNat ++ beBytes 4 h.c.toNat ++ beBytes 4 h.d.toNat ++ beBytes 4 h.e.toNat

/-- `SHA1(M)` (R150 to R155). -/
def sha1 (m : List Byte) : List Byte :=
  let p := sha1Pad m
  sha1Digest (sha1Blocks (p.length / 64) (wordsOf p) sha1Init)

/-- The prepared key `K0`, 64 bytes (R156). -/
def hmacKey (k : List Byte) : List Byte :=
  if k.length > 64 then sha1 k ++ List.replicate 44 0 else k ++ List.replicate (64 - k.length) 0

/-- `K0` with every byte exclusive-ored with a pad byte (R157). -/
def xorPad (p : Byte) (k0 : List Byte) : List Byte := k0.map (· ^^^ p)

/-- `HMAC(K, m)` (R157): ipad is 0x36, opad is 0x5C. -/
def hmacSha1 (k m : List Byte) : List Byte :=
  sha1 (xorPad 0x5C (hmacKey k) ++ sha1 (xorPad 0x36 (hmacKey k) ++ m))

end Sys2Proof.Machine
end

