-- ==== Sys2Proof/Machine/Otp.lean ====
section
/-! DEFINITION. The HOTP/TOTP engine: HOTP, TOTP and VERIFY (spec/41_hotp_totp.md R158 to R175). -/

namespace Sys2Proof.Machine

open Sys2Proof

/-- Dynamic truncation of a 20-byte digest to a 31-bit number (R159). -/
def truncateDigest (hs : List Byte) : Nat :=
  let off := (byteAt hs 19).toNat % 16
  fromBE (slice hs off 4) % 2 ^ 31

/-- `hotp(key, counter, d)` (R158 to R161), for `counter` below 2^64. -/
def hotp (key : List Byte) (counter d : Nat) : Nat := truncateDigest (hmacSha1 key (beBytes 8 counter)) % 10 ^ d

/-- `totp(key, unix_time, window, d)` (R162). -/
def totp (key : List Byte) (time window d : Nat) : Nat := hotp key (time / window) d

/-- d lies outside `DIGITS_MIN .. DIGITS_MAX` (R170, D17). -/
def digitsIllegal (cfg : Config) (d : Byte) : Bool :=
  decide (d.toNat < cfg.digitsMin) || decide (cfg.digitsMax < d.toNat)

/-- HOTP under given parameters (R170). -/
def hotpAt (cfg : Config) (d : Byte) (counter : Word64) (s : State) : Host.Outcome State Fault Refusal :=
  if digitsIllegal cfg d then .next (s.raise .errParam)
  else if s.secret.length = 0 then .next (s.raise .errNoSecret)
  else .next (s.respond .ok (beBytes 4 (hotp s.secret counter.toNat d.toNat)))

/-- TOTP under given parameters (R172). -/
def totpAt (cfg : Config) (d : Byte) (window : Word32) (time : Word64) (s : State) :
    Host.Outcome State Fault Refusal :=
  if digitsIllegal cfg d || decide (window = 0) then .next (s.raise .errParam)
  else if s.secret.length = 0 then .next (s.raise .errNoSecret)
  else .next (s.respond .ok (beBytes 4 (totp s.secret time.toNat window.toNat d.toNat)))

/-- VERIFY under given parameters (R175): the reserved-bit, digit and window checks are one check, missing time and
missing secret are one check (R254); the verdict is an OK response. -/
def verifyAt (cfg : Config) (d flags : Byte) (window : Word32) (time : Word64) (code : List Byte) (s : State) :
    Host.Outcome State Fault Refusal :=
  if flagsReservedSet flags || digitsIllegal cfg d || decide (window = 0) then .next (s.raise .errParam)
  else if !flagTimeValid flags || decide (s.secret.length = 0) then .next (s.raise .noAnswer)
  else
    let expect := decText (totp s.secret time.toNat window.toNat d.toNat) d.toNat
    .next (s.respond .ok [verdictByte (decide (code.length = d.toNat ∧ code = expect))])

/-- HOTP: compute an HOTP code from the loaded secret (R170). -/
def execHotp (d : Byte) (counter : Word64) (s : State) : Host.Outcome State Fault Refusal :=
  hotpAt Config.hardware d counter s

/-- TOTP: compute a TOTP code from the loaded secret (R172). -/
def execTotp (d : Byte) (window : Word32) (time : Word64) (s : State) : Host.Outcome State Fault Refusal :=
  totpAt Config.hardware d window time s

/-- VERIFY: dynamic-password verification (R175). -/
def execVerify (d flags : Byte) (window : Word32) (time : Word64) (code : List Byte) (s : State) :
    Host.Outcome State Fault Refusal :=
  verifyAt Config.hardware d flags window time code s

end Sys2Proof.Machine
end

