-- ==== Sys2Proof/Machine/Dispatch.lean ====
section
/-! DEFINITION. Which meaning each instruction has: one arm for each row of spec/opcode_table.json. -/

namespace Sys2Proof.Machine

open Sys2Proof

def exec (i : Instr) (s : State) : Host.Outcome State Fault Refusal :=
  match i with
  | .b32enc data => Sys2Proof.Machine.execB32enc data s
  | .b32dec text => Sys2Proof.Machine.execB32dec text s
  | .ldsec text => Sys2Proof.Machine.execLdsec text s
  | .hotp d counter => Sys2Proof.Machine.execHotp d counter s
  | .totp d window time => Sys2Proof.Machine.execTotp d window time s
  | .verify d flags window time code => Sys2Proof.Machine.execVerify d flags window time code s
  | .feed byte now => Sys2Proof.Machine.execFeed byte now s
  | .tick now => Sys2Proof.Machine.execTick now s
  | .frame version cmd payload => Sys2Proof.Machine.execFrame version cmd payload s
  | .status => Sys2Proof.Machine.execStatus s

end Sys2Proof.Machine
end

