-- ==== Sys2Proof/Machine/Port.lean ====
section
/-! DEFINITION. A command record delivered at the port, performed to completion (spec/30_encoding.md R79, R82, R83;
spec/60_exceptions.md R254), and the next port input performed (spec/00_scope.md R6, spec/70_reset_and_hazards.md
R280, R281). Both are written once, for the hardware and for any instantiation. -/

namespace Sys2Proof.Machine

open Sys2Proof

/-- One command record performed under given parameters by a given meaning of the instructions: its instruction if
it is one, else its error status (R79, R254). -/
def performWith (cfg : Config) (run : Instr → State → Host.Outcome State Fault Refusal) (rec : List Byte)
    (s : State) : Host.Outcome State Fault Refusal :=
  match decodeAt cfg rec with
  | .ok i => run i s
  | .error why => .next (s.rejectRecord why)

/-- One command record performed by this spec's hardware. -/
def perform (rec : List Byte) (s : State) : Host.Outcome State Fault Refusal :=
  performWith Config.hardware exec rec s

/-- The next port input performed, a record by `performRecord`. With no input at the port ZTDL waits and keeps its
state (R264, R281; DEDUCED, log entry 2). -/
def performInput (performRecord : List Byte → State → Host.Outcome State Fault Refusal) (s : State) :
    Host.Outcome State Fault Refusal :=
  match s.takeInput with
  | none => .next s
  | some (.record rec, s') => performRecord rec s'
  | some (.reset _, s') => .next s'.assertReset

end Sys2Proof.Machine
end

