-- ==== Sys2Proof/Machine/Step.lean ====
section
/-! DEFINITION. One step: one port input performed to completion (spec/00_scope.md R6, spec/20_memory.md R60). -/

namespace Sys2Proof.Machine

open Sys2Proof

/-- One step: the next port input performed, or a wait. -/
def step (s : State) : Host.Outcome State Fault Refusal := performInput perform s

/-- The state with one record, given as a table word, as the next input at the port (log entry 3). -/
def State.withFetchWord (s : State) (nbits w : Nat) : State := s.offerRecord (recordOfWord nbits w)

end Sys2Proof.Machine
end

