-- ==== Sys2Proof/Machine/Assembler.lean ====
section
/-! DEFINITION. The textual form of command records (spec/30_encoding.md R92) and the pseudo-instructions (R93).
Where R92 is silent (white space, letter case, a `;` inside a string, FEEDS of no bytes,
numbers too wide for their field) the choices are log entry 8. -/

namespace Sys2Proof.Machine

open Sys2Proof

/-- `FEEDS x"<b0 ... bk>", @<t>, +<s>`: one FEED a byte, the times t, t+s, ... modulo 2^32 (R93). -/
def feeds : List Byte → Millis → Millis → List Instr
  | [], _, _ => []
  | b :: bs, t, s => .feed b t :: feeds bs (t + s) s

/-- The VERIFY flags byte of the text's `tv=<0 or 1>` (R92). -/
def tvFlags (tv : Bool) : Byte := if tv then 1 else 0

/-- `UNLOCK`: VERIFY with the 300-second window of unlock verification (R93). -/
def unlock (d : Byte) (tv : Bool) (time : Word64) (code : List Byte) : Instr := .verify d (tvFlags tv) 300 time code

/-- `UNLOCK` with the digit count of the MCU's dynamic password, which the spec leaves OPEN (P1, log entry 7). -/
def unlockOfMcu (tv : Bool) (time : Word64) (code : List Byte) : Instr := unlock Config.unlockDigits tv time code

/-- `REPLY`: FRAME with version 0x00 (R93). -/
def reply (cmd : Byte) (payload : List Byte) : Instr := .frame 0x00 cmd payload

/-- A token of a line (R92). -/
inductive Token where
  | word (name : List Char)
  | num (value : Nat)
  | hexBytes (bytes : List Byte)
  | text (bytes : List Byte)
  | punct (c : Char)
deriving DecidableEq, Repr

/-- What the tokenizer stands in: between tokens, or inside one read so far (its parts latest first). -/
inductive LexMode where
  | idle
  | word (sofar : List Char)
  | text (sofar : List Byte)
  | hex (sofar : List Byte) (nibble : Option Nat)
deriving DecidableEq, Repr

/-- The double quote. -/
def quoteChar : Char := Char.ofNat 0x22

/-- The value of a hexadecimal digit, either letter case. -/
def hexDigit (c : Char) : Option Nat :=
  let n := c.toNat
  if 0x30 ≤ n ∧ n ≤ 0x39 then some (n - 0x30)
  else if 0x41 ≤ n ∧ n ≤ 0x46 then some (n - 0x41 + 10)
  else if 0x61 ≤ n ∧ n ≤ 0x66 then some (n - 0x61 + 10)
  else none

/-- A letter, a digit or an underscore. -/
def isWordChar (c : Char) : Bool :=
  let n := c.toNat
  decide (0x30 ≤ n ∧ n ≤ 0x39) || decide (0x41 ≤ n ∧ n ≤ 0x5A) || decide (0x61 ≤ n ∧ n ≤ 0x7A) || decide (n = 0x5F)

/-- The number with these digits in a base, or none if one is no digit of it. -/
def digitsNat (base : Nat) : Nat → List Char → Option Nat
  | acc, [] => some acc
  | acc, c :: cs =>
    match hexDigit c with
    | none => none
    | some k => if k < base then digitsNat base (acc * base + k) cs else none

/-- A number, decimal or `0x` hexadecimal (R92). -/
def parseNumber : List Char → Option Nat
  | '0' :: 'x' :: c :: cs => digitsNat 16 0 (c :: cs)
  | cs => digitsNat 10 0 cs

/-- The token of a run of word characters: a number if it begins with a digit, else a word. -/
def wordToken (w : List Char) : Option Token :=
  match w with
  | [] => none
  | c :: _ => if 0x30 ≤ c.toNat ∧ c.toNat ≤ 0x39 then (parseNumber w).map .num else some (.word w)

/-- What one character does between tokens: the tokens it ends, and the mode after it, none when a comment begins. -/
def idleChar (c : Char) : Option (List Token × Option LexMode) :=
  if c = ' ' ∨ c = '\t' ∨ c = '\r' then some ([], some .idle)
  else if c = ';' then some ([], none)
  else if c = quoteChar then some ([], some (.text []))
  else if c = '=' ∨ c = ',' ∨ c = '@' ∨ c = '+' then some ([.punct c], some .idle)
  else if isWordChar c then some ([], some (.word [c]))
  else none

/-- The tokens of the rest of a line. A `;` begins a comment only between tokens: inside `"..."` it is a character
of the string, and inside `x"..."` it is no hexadecimal digit and the line is refused (DESIGN CHOICE, log entry 8). -/
def lex : LexMode → List Char → Option (List Token)
  | .idle, [] => some []
  | .idle, c :: cs =>
    match idleChar c with
    | none => none
    | some (ts, none) => some ts
    | some (ts, some m) => (lex m cs).map (ts ++ ·)
  | .word w, [] => (wordToken w.reverse).map ([·])
  | .word w, c :: cs =>
    if isWordChar c then lex (.word (c :: w)) cs
    else if c = quoteChar ∧ w = ['x'] then lex (.hex [] none) cs
    else
      match wordToken w.reverse, idleChar c with
      | some t, some (ts, none) => some (t :: ts)
      | some t, some (ts, some m) => (lex m cs).map (fun r => t :: (ts ++ r))
      | _, _ => none
  | .text _, [] => none
  | .text bs, c :: cs =>
    if c = quoteChar then (lex .idle cs).map (.text bs.reverse :: ·)
    else if c.toNat < 128 then lex (.text (BitVec.ofNat 8 c.toNat :: bs)) cs
    else none
  | .hex _ _, [] => none
  | .hex bs none, c :: cs =>
    if c = quoteChar then (lex .idle cs).map (.hexBytes bs.reverse :: ·)
    else if c = ' ' then lex (.hex bs none) cs
    else
      match hexDigit c with
      | none => none
      | some k => lex (.hex bs (some k)) cs
  | .hex bs (some hi), c :: cs =>
    match hexDigit c with
    | none => none
    | some k => lex (.hex (BitVec.ofNat 8 (hi * 16 + k) :: bs) none) cs

/-- A number that fits a field of w bits. -/
def fit (w n : Nat) : Option (BitVec w) := if n < 2 ^ w then some (BitVec.ofNat w n) else none

/-- `<key>=<number>` at the head of the tokens. -/
def keyed (key : List Char) : List Token → Option (Nat × List Token)
  | .word k :: .punct '=' :: .num n :: rest => if k = key then some (n, rest) else none
  | _ => none

/-- A comma at the head of the tokens. -/
def comma : List Token → Option (List Token)
  | .punct ',' :: rest => some rest
  | _ => none

/-- `, <key>=<number>` at the head of the tokens. -/
def nextKeyed (key : List Char) (ts : List Token) : Option (Nat × List Token) := (comma ts).bind (keyed key)

/-- `tv=<0 or 1>`. -/
def parseTv (n : Nat) : Option Bool := if n = 0 then some false else if n = 1 then some true else none

/-- A string operand whose length fits its field `n` of w bits. -/
def fitBytes (w : Nat) (bs : List Byte) : Option (List Byte) := if bs.length < 2 ^ w then some bs else none

/-- The operands of `FEEDS` (R93); `s` is 0 where it is left out. R93 writes at least one byte; an empty byte string
is accepted and gives no record (DESIGN CHOICE, log entry 8). -/
def parseFeeds : List Token → Option (List Instr)
  | [.hexBytes bs, .punct ',', .punct '@', .num t] => (fit 32 t).map (fun t => feeds bs t 0)
  | [.hexBytes bs, .punct ',', .punct '@', .num t, .punct ',', .punct '+', .num s] =>
    (fit 32 t).bind (fun t => (fit 32 s).map (fun s => feeds bs t s))
  | _ => none

/-- The operands of `VERIFY` after its digit count and `tv` (R92). -/
def parseVerify (ts : List Token) : Option Instr := do
  let (d, ts) ← keyed "d".toList ts
  let (tv, ts) ← nextKeyed "tv".toList ts
  let (w, ts) ← nextKeyed "w".toList ts
  let (t, ts) ← nextKeyed "t".toList ts
  match ts with
  | [.punct ',', .text code] =>
    pure (.verify (← fit 8 d) (tvFlags (← parseTv tv)) (← fit 32 w) (← fit 64 t) (← fitBytes 8 code))
  | _ => none

/-- The operands of `UNLOCK` (R93). -/
def parseUnlock (ts : List Token) : Option Instr := do
  let (d, ts) ← keyed "d".toList ts
  let (tv, ts) ← nextKeyed "tv".toList ts
  let (t, ts) ← nextKeyed "t".toList ts
  match ts with
  | [.punct ',', .text code] => pure (unlock (← fit 8 d) (← parseTv tv) (← fit 64 t) (← fitBytes 8 code))
  | _ => none

/-- The operands of `HOTP` (R92). -/
def parseHotp (ts : List Token) : Option Instr := do
  let (d, ts) ← keyed "d".toList ts
  let (c, ts) ← nextKeyed "c".toList ts
  match ts with
  | [] => pure (.hotp (← fit 8 d) (← fit 64 c))
  | _ => none

/-- The operands of `TOTP` (R92). -/
def parseTotp (ts : List Token) : Option Instr := do
  let (d, ts) ← keyed "d".toList ts
  let (w, ts) ← nextKeyed "w".toList ts
  let (t, ts) ← nextKeyed "t".toList ts
  match ts with
  | [] => pure (.totp (← fit 8 d) (← fit 32 w) (← fit 64 t))
  | _ => none

/-- The operands of `FRAME` (R92). -/
def parseFrame (ts : List Token) : Option Instr := do
  let (v, ts) ← keyed "v".toList ts
  let (c, ts) ← nextKeyed "c".toList ts
  match ts with
  | [.punct ',', .hexBytes p] => pure (.frame (← fit 8 v) (← fit 8 c) (← fitBytes 16 p))
  | _ => none

/-- The operands of `REPLY` (R93). -/
def parseReply (ts : List Token) : Option Instr := do
  let (c, ts) ← keyed "c".toList ts
  match ts with
  | [.punct ',', .hexBytes p] => pure (reply (← fit 8 c) (← fitBytes 16 p))
  | _ => none

/-- The operands of `FEED` (R92). -/
def parseFeed : List Token → Option Instr
  | [.num b, .punct ',', .punct '@', .num t] => do pure (.feed (← fit 8 b) (← fit 32 t))
  | _ => none

/-- The operand of `TICK` (R92). -/
def parseTick : List Token → Option Instr
  | [.punct '@', .num t] => do pure (.tick (← fit 32 t))
  | _ => none

/-- A hexadecimal string as the only operand. -/
def parseHexOnly : List Token → Option (List Byte)
  | [.hexBytes bs] => fitBytes 16 bs
  | _ => none

/-- An ASCII string as the only operand. -/
def parseTextOnly : List Token → Option (List Byte)
  | [.text bs] => fitBytes 16 bs
  | _ => none

/-- One line's instructions: none for an empty line or a comment, one for a mnemonic of R92, those of R93's
expansion for a pseudo-instruction. -/
def parseLine : List Token → Option (List Instr)
  | [] => some []
  | .word m :: ts =>
    if m = "B32ENC".toList then (parseHexOnly ts).map (fun b => [.b32enc b])
    else if m = "B32DEC".toList then (parseTextOnly ts).map (fun b => [.b32dec b])
    else if m = "LDSEC".toList then (parseTextOnly ts).map (fun b => [.ldsec b])
    else if m = "HOTP".toList then (parseHotp ts).map ([·])
    else if m = "TOTP".toList then (parseTotp ts).map ([·])
    else if m = "VERIFY".toList then (parseVerify ts).map ([·])
    else if m = "FEED".toList then (parseFeed ts).map ([·])
    else if m = "TICK".toList then (parseTick ts).map ([·])
    else if m = "FRAME".toList then (parseFrame ts).map ([·])
    else if m = "STATUS".toList then (if ts = [] then some [.status] else none)
    else if m = "FEEDS".toList then parseFeeds ts
    else if m = "UNLOCK".toList then (parseUnlock ts).map ([·])
    else if m = "REPLY".toList then (parseReply ts).map ([·])
    else none
  | _ => none

/-- The lines of a text, split at the newline. -/
def splitLines : List Char → List (List Char)
  | [] => [[]]
  | c :: cs =>
    match splitLines cs with
    | [] => [[c]]
    | l :: ls => if c = '\n' then [] :: l :: ls else (c :: l) :: ls

/-- One line of assembler text. -/
def assembleLine (line : List Char) : Option (List Instr) := (lex .idle line).bind parseLine

/-- The instructions of lines, in order; none if a line is not of the syntax. -/
def assembleLines : List (List Char) → Option (List Instr)
  | [] => some []
  | l :: ls =>
    match assembleLine l with
    | none => none
    | some is => (assembleLines ls).map (is ++ ·)

/-- The instructions of an assembler text, one record a line (R92). -/
def assemble (src : String) : Option (List Instr) := assembleLines (splitLines src.toList)

/-- The command records of an assembler text (R80, R92). -/
def assembleRecords (src : String) : Option (List (List Byte)) := (assemble src).map (List.map encode)

end Sys2Proof.Machine
end

