-- ==== Sys2Proof/Machine/Instantiation.lean ====
section
/-! DEFINITION. ZTDL at any instantiation parameters (spec/00_scope.md R7: "A model takes each as an argument; the
default is the value this spec's hardware has"). `exec` and `step` are this machine at `Config.hardware` (stated in
Sys2Proof/Certificates/Slice0/Obligations.lean). -/

namespace Sys2Proof.Machine

open Sys2Proof

/-- One instruction under given parameters. FEED, FRAME and STATUS depend on none of them: the Rx buffer's
capacity is never exceeded (R201), so it is no operand of FEED. -/
def execAt (cfg : Config) (i : Instr) (s : State) : Host.Outcome State Fault Refusal :=
  match i with
  | .b32enc data => b32encAt cfg data s
  | .b32dec text => b32decAt cfg text s
  | .ldsec text => ldsecAt cfg text s
  | .hotp d counter => hotpAt cfg d counter s
  | .totp d window time => totpAt cfg d window time s
  | .verify d flags window time code => verifyAt cfg d flags window time code s
  | .feed byte now => execFeed byte now s
  | .tick now => tickAt cfg now s
  | .frame version cmd payload => execFrame version cmd payload s
  | .status => execStatus s

/-- One command record performed under given parameters. -/
def performAt (cfg : Config) (rec : List Byte) (s : State) : Host.Outcome State Fault Refusal :=
  performWith cfg (execAt cfg) rec s

/-- One step under given parameters. -/
def stepAt (cfg : Config) (s : State) : Host.Outcome State Fault Refusal := performInput (performAt cfg) s

end Sys2Proof.Machine
end

