-- ==== Sys2Proof/Safety.lean ====
section
/-! DEFINITION. What the claims speak of: the invariant of spec/10_state.md R24 and R26, sequences of operations,
and the runs of spec/70_reset_and_hazards.md R294. -/

namespace Sys2Proof.Machine

open Sys2Proof

/-- What `RX_BUF` satisfies between operations (R24): the fixed header where it has arrived, and never as long as
the frame its length field declares. -/
abbrev RxBufOk (buf : List Byte) : Prop :=
  (1 ≤ buf.length → byteAt buf 0 = 0x55) ∧
  (2 ≤ buf.length → byteAt buf 1 = 0xAA) ∧
  (6 ≤ buf.length → buf.length ≤ 6 + be16 (byteAt buf 4) (byteAt buf 5))

/-- The invariant at given parameters: R24, and the secret within its register (R26). -/
abbrev State.invAt (cfg : Config) (s : State) : Prop := RxBufOk s.rxBuf ∧ s.secret.length ≤ cfg.secretMax

/-- The invariant of this spec's hardware. -/
abbrev State.inv (s : State) : Prop := s.invAt Config.hardware

/-- Operations performed one after another, each on the state the one before it left (R60). -/
def execAll : List Instr → State → Host.Outcome State Fault Refusal
  | [], s => .next s
  | i :: is, s =>
    match exec i s with
    | .next t => execAll is t
    | .fault r => .fault r
    | .refused r => .refused r

/-- The FEEDs of received bytes, each with its clock sample (R283 a). -/
def feedList (bytes : List (Byte × Millis)) : List Instr := bytes.map (fun p => .feed p.1 p.2)

/-- Command records performed from a given state, until all have been answered (R60, R79). -/
def runRecords (recs : List (List Byte)) (s : State) : Host.Outcome State Fault Refusal :=
  Host.Core.run Sys2Proof.core recs.length (s.issue recs)

/-- A run: command records from reset (R294). -/
def runFromReset (recs : List (List Byte)) : Host.Outcome State Fault Refusal := runRecords recs State.reset

end Sys2Proof.Machine
end

