-- ==== Sys2Proof/Certificates/Slice0/Obligations.lean ====
section
/-! DEFINITION. The statements for the provers, from the numbered rules of spec/. A docstring names the rule it
formalises; where the spec marks a rule as its own inference ([derived]) or the statement rests on a choice of the
model, the docstring says so. -/

namespace Sys2Proof.Claims

open Sys2Proof Sys2Proof.Machine

/-- The state with one more response record emitted, and nothing else changed. -/
def answered (s : State) (resp : List Byte) : State := { s with responses := s.responses ++ [resp] }

/-- The record length of the table of R80, from the record's bytes; none for a first byte outside the table. -/
def layoutLength (rec : List Byte) : Option Nat :=
  match (byteAt rec 0).toNat with
  | 0x01 => some (3 + fromBE (slice rec 1 2))
  | 0x02 => some (3 + fromBE (slice rec 1 2))
  | 0x03 => some (3 + fromBE (slice rec 1 2))
  | 0x04 => some 10
  | 0x05 => some 14
  | 0x06 => some (16 + (byteAt rec 15).toNat)
  | 0x10 => some 6
  | 0x11 => some 5
  | 0x12 => some (5 + fromBE (slice rec 3 2))
  | 0x20 => some 1
  | _ => none

/-- A record of the given opcode whose length is not `len` ends in `ERR_FORMAT` with no other effect. -/
def rejectsWrongLength (op : Byte) (len : List Byte → Nat) : Prop :=
  ∀ (s : State) (body : List Byte) (rest : List PortInput), s.pending = .record (op :: body) :: rest →
    (op :: body).length ≠ len (op :: body) → step s = .next (answered { s with pending := rest } [0x02])

/-- The next input at the port is a reset, or a record whose first byte is one of `ops`. -/
def inputIsResetOr (s : State) (ops : List Byte) : Prop :=
  (∃ dropped rest, s.pending = .reset dropped :: rest) ∨
  ∃ op body rest, op ∈ ops ∧ s.pending = .record (op :: body) :: rest

/-- The byte-wise sum modulo 256, as one number (R76). -/
def byteSum (s : List Byte) : Byte := BitVec.ofNat 8 (s.map BitVec.toNat).sum

/-- The status of a record in the order of R254, from the record's bytes and the secret alone. -/
def expectedStatus (rec secret : List Byte) : Byte :=
  let op := (byteAt rec 0).toNat
  let d := (byteAt rec 1).toNat
  let flags := (byteAt rec 2).toNat
  if rec = [] then 0x02
  else if layoutLength rec = none then 0x01
  else if layoutLength rec ≠ some rec.length then 0x02
  else if (op = 0x01 ∧ rec.length > 3 + 160) ∨ ((op = 0x02 ∨ op = 0x03) ∧ rec.length > 3 + 256) then 0x03
  else if ((op = 0x04 ∨ op = 0x05 ∨ op = 0x06) ∧ (d < 1 ∨ 10 < d)) ∨ (op = 0x05 ∧ fromBE (slice rec 2 4) = 0) ∨
      (op = 0x06 ∧ (fromBE (slice rec 3 4) = 0 ∨ 2 ≤ flags)) then 0x04
  else if (op = 0x04 ∨ op = 0x05) ∧ secret = [] then 0x06
  else if op = 0x06 ∧ (flags % 2 = 0 ∨ secret = []) then 0x07
  else if (op = 0x02 ∨ op = 0x03) ∧ ∃ c ∈ rec.drop 3, c ≠ 0x3D ∧ symval c = none then 0x05
  else 0x00

/-- The upper-case letter of a lower-case one; every other byte as it is. -/
def upperCase (c : Byte) : Byte := if 0x61 ≤ c.toNat ∧ c.toNat ≤ 0x7A then c - 0x20 else c

/-- A byte string with bit k of byte j inverted. -/
def flipBit (bytes : List Byte) (j k : Nat) : List Byte := bytes.set j (byteAt bytes j ^^^ ((1 : Byte) <<< k))

/-- R203's accepted bytes: a 0x55 at offset 0, a 0xAA at offset 1, any byte at offsets 2 to 5, a payload byte. -/
def acceptsByte (rxBuf : List Byte) (byte : Byte) : Prop :=
  (rxBuf.length = 0 ∧ byte = 0x55) ∨ (rxBuf.length = 1 ∧ byte = 0xAA) ∨
  (2 ≤ rxBuf.length ∧ rxBuf.length ≤ 5) ∨
  (6 ≤ rxBuf.length ∧ rxBuf.length < 6 + be16 (byteAt rxBuf 4) (byteAt rxBuf 5))

/-- The event of a byte that is not accepted, in a state of R24: HDR_DISCARD at offset 0 or 1, else FRAME_OK or
CSUM_ERR (R201, R86). -/
def closingEvent (rxBuf : List Byte) (byte : Byte) : List Byte :=
  if rxBuf.length < 2 then [0x03, BitVec.ofNat 8 rxBuf.length, byte]
  else if byte = byteSum rxBuf then
    [0x01, byteAt rxBuf 2, byteAt rxBuf 3, byteAt rxBuf 4, byteAt rxBuf 5] ++ rxBuf.drop 6
  else [0x02, byte, byteSum rxBuf]

/-- The response of the FEED that completes the frame of (version, cmd, payload): OK, FRAME_OK (R86). -/
def frameOkResponse (version cmd : Byte) (payload : List Byte) : List Byte :=
  [0x00, 0x01, version, cmd] ++ beBytes 2 payload.length ++ payload

/-- `f_t` by the four rows of R153's table, row t / 20. -/
def roundFunction (t : Nat) (x y z : Word32) : Word32 :=
  match t / 20 with
  | 0 => (x &&& y) ^^^ (~~~x &&& z)
  | 1 => x ^^^ y ^^^ z
  | 2 => (x &&& y) ^^^ (x &&& z) ^^^ (y &&& z)
  | _ => x ^^^ y ^^^ z

/-- `K_t` by the four rows of R153's table. -/
def roundConstant (t : Nat) : Word32 := [0x5A827999, 0x6ED9EBA1, 0x8F1BBCDC, 0xCA62C1D6].getD (t / 20) 0

/-- Round t of R154 on the working variables, with `W_t` taken from the schedule and the rotations by R10. -/
def roundOf (w : List Word32) (r : Sha1Regs) (t : Nat) : Sha1Regs :=
  { a := ((r.a <<< 5) ||| (r.a >>> 27)) + roundFunction t r.b r.c r.d + r.e + roundConstant t + w.getD t 0
    b := r.a, c := (r.b <<< 30) ||| (r.b >>> 2), d := r.c, e := r.d }

/-- `H0 .. H4` after the blocks of a padded message, in order (R150, R151, R154): block i is the words 16i to
16i + 15. -/
def hashOfBlocks (padded : List Byte) : Sha1Regs :=
  ((List.range (padded.length / 64)).map (fun i => ((wordsOf padded).drop (16 * i)).take 16)).foldl sha1Compress
    { a := 0x67452301, b := 0xEFCDAB89, c := 0x98BADCFE, d := 0x10325476, e := 0xC3D2E1F0 }

end Sys2Proof.Claims

open Sys2Proof Sys2Proof.Machine Sys2Proof.Claims

/-! ## Reset, the port and the step -/

/-- R35: the value of every element and every derived value after reset. -/
def Obligations.ResetHoldsSpecValues : Prop :=
  State.reset.rxBuf = [] ∧ State.reset.rxLastMs = 0 ∧ State.reset.secret = [] ∧
  State.reset.secretValid = false ∧ State.reset.rxLen = 0 ∧ State.reset.rxEmpty = true ∧
  State.reset.statusWord = 0x04000000

/-- 70_reset_and_hazards.md section 1: reset asserted at any state gives the three elements their reset values; the
record in delivery is dropped without a response. That reset is a port input is the model's choice (log entry 1). -/
def Obligations.ResetInputClearsState : Prop :=
  ∀ (s : State) (dropped : Option (List Byte)) (rest : List PortInput), s.pending = .reset dropped :: rest →
    step s = .next { rxBuf := [], rxLastMs := 0, secret := [], pending := rest, responses := s.responses }

/-- A step performs the instruction that the record at the port decodes to, the record taken from the port first
(30_encoding.md section 2; the port as a list is the model's choice, log entry 1). -/
def Obligations.StepRunsDecodedRecord : Prop :=
  ∀ (s : State) (rec : List Byte) (rest : List PortInput) (i : Instr), s.pending = .record rec :: rest →
    decode rec = .ok i → step s = exec i { s with pending := rest }

/-- 70_reset_and_hazards.md section 1 and 60_exceptions.md section 6: with nothing at the port ZTDL waits and its
state is kept. That waiting is a step is the model's choice (log entry 2). -/
def Obligations.IdlePortKeepsState : Prop := ∀ s : State, s.pending = [] → step s = .next s

/-- R82: an empty record, a record too short for its length field and a record of the wrong length end in
`ERR_FORMAT` with no other effect. -/
def Obligations.MalformedRecordsEndInFormatError : Prop :=
  (∀ (s : State) (rest : List PortInput), s.pending = .record [] :: rest →
    step s = .next (answered { s with pending := rest } [0x02])) ∧
  (∀ (s : State) (rec : List Byte) (rest : List PortInput) (len : Nat), s.pending = .record rec :: rest →
    layoutLength rec = some len → rec.length ≠ len →
    step s = .next (answered { s with pending := rest } [0x02])) ∧
  (∀ (rec : List Byte) (len : Nat), layoutLength rec = some len → rec.length = len → ∃ i, decode rec = .ok i)

/-- R83: every first byte outside the table ends in `ERR_ILLEGAL_OP` with no other effect, whatever follows it; a
reserved flag bit of VERIFY ends in `ERR_PARAM`. -/
def Obligations.IllegalOpcodesEndInIllegalOp : Prop :=
  (∀ (s : State) (b : Byte) (body : List Byte) (rest : List PortInput), s.pending = .record (b :: body) :: rest →
    (b.toNat = 0 ∨ (0x07 ≤ b.toNat ∧ b.toNat ≤ 0x0F) ∨ (0x13 ≤ b.toNat ∧ b.toNat ≤ 0x1F) ∨ 0x21 ≤ b.toNat) →
    step s = .next (answered { s with pending := rest } [0x01])) ∧
  (∀ (s : State) (d flags : Byte) (window : Word32) (time : Word64) (code : List Byte), 2 ≤ flags.toNat →
    exec (.verify d flags window time code) s = .next (answered s [0x04]))

/-- R84: every command record produces exactly one response record; an error response is the status byte alone,
except the two of R85 with fields. -/
def Obligations.EveryRecordGetsOneResponse : Prop :=
  ∀ (s : State) (rec : List Byte) (rest : List PortInput), s.pending = .record rec :: rest →
    ∃ (t : State) (status : Byte) (fields : List Byte), step s = .next t ∧ t.pending = rest ∧
      t.responses = s.responses ++ [status :: fields] ∧ status.toNat ≤ 7 ∧
      (status ≠ 0x00 → fields = [] ∨
        (status = 0x05 ∧ fields = [0x00, 0x00] ∧ (rec.head? = some 0x02 ∨ rec.head? = some 0x03)))

/-- R254 and R251: the status of every record is the first that applies, in the order of R254. -/
def Obligations.StatusFollowsPriority : Prop :=
  ∀ (s : State) (rec : List Byte) (rest : List PortInput), s.pending = .record rec :: rest →
    ∃ (t : State) (fields : List Byte), step s = .next t ∧
      t.responses = s.responses ++ [expectedStatus rec s.secret :: fields]

/-- R252: a status other than `OK` writes no state, with the one exception of LDSEC ending in `ERR_B32_SYMBOL`,
which empties the secret; FEED always responds `OK`, and clears the buffer on every event but NONE. -/
def Obligations.ErrorStatusWritesNoState : Prop :=
  (∀ (s t : State) (rec : List Byte) (rest : List PortInput) (status : Byte) (fields : List Byte),
    s.pending = .record rec :: rest → step s = .next t → t.responses = s.responses ++ [status :: fields] →
    status ≠ 0x00 →
    t.rxBuf = s.rxBuf ∧ t.rxLastMs = s.rxLastMs ∧
      t.secret = (if rec.head? = some 0x03 ∧ status = 0x05 then [] else s.secret)) ∧
  (∀ (s : State) (byte : Byte) (now : Millis), ∃ (t : State) (event : List Byte),
    exec (.feed byte now) s = .next t ∧ t.responses = s.responses ++ [0x00 :: event] ∧
      (event ≠ [0x00] → t.rxBuf = []))

/-- Only FEED, TICK and reset write `RX_BUF`, only FEED and reset write `RX_LAST_MS`, only LDSEC and reset write
`SECRET` (10_state.md sections 2 and 3). -/
def Obligations.WritersOfEachElement : Prop :=
  ∀ s t : State, step s = .next t →
    (t.rxBuf ≠ s.rxBuf → inputIsResetOr s [0x10, 0x11]) ∧
    (t.rxLastMs ≠ s.rxLastMs → inputIsResetOr s [0x10]) ∧
    (t.secret ≠ s.secret → inputIsResetOr s [0x03])

/-- Operations take effect one at a time in issue order, each on exactly the effects of all earlier ones
(20_memory.md section 5): every run of records completes with one response for each, and a run of two sequences is
the run of the second from where the first ended. -/
def Obligations.RunsAreSequential : Prop :=
  ∀ (first second : List (List Byte)) (s : State), s.pending = [] →
    ∃ (t : State) (answers : List (List Byte)), runRecords first s = .next t ∧ t.pending = [] ∧
      answers.length = first.length ∧ t.responses = s.responses ++ answers ∧
      runRecords (first ++ second) s = runRecords second t

/-- No operation reads what waits at the port or what was emitted before (10_state.md R29; the two fields are the
model's own, log entry 1): the three elements and the one new response depend on the three elements alone. -/
def Obligations.OperationsIgnorePortFields : Prop :=
  ∀ (i : Instr) (s : State), ∃ (rx : List Byte) (last : Millis) (key resp : List Byte),
    ∀ (waiting : List PortInput) (emitted : List (List Byte)),
      exec i { s with pending := waiting, responses := emitted } =
        .next { rxBuf := rx, rxLastMs := last, secret := key, pending := waiting, responses := emitted ++ [resp] }

/-- The bytes of the secret reach the host only through the codes and verdicts computed from them (20_memory.md
section 1): every other operation responds alike for two secrets of one length. -/
def Obligations.SecretBytesStayHidden : Prop :=
  ∀ (i : Instr) (s : State) (key : List Byte), key.length = s.secret.length →
    (∀ d c, i ≠ .hotp d c) → (∀ d w t, i ≠ .totp d w t) → (∀ d f w t c, i ≠ .verify d f w t c) →
    ∃ t u : State, exec i s = .next t ∧ exec i { s with secret := key } = .next u ∧
      t.responses = u.responses ∧ t.rxBuf = u.rxBuf ∧ t.rxLastMs = u.rxLastMs

/-- The idempotency table of 20_memory.md section 3, which the spec marks [derived]: every operation but FEED and
TICK, issued twice, gives the same response and the same three elements; a second TICK with the same `now` finds
nothing more to clear. -/
def Obligations.IssuedTwiceChangesNothingMore : Prop :=
  (∀ (i : Instr) (s t : State), (∀ b now, i ≠ .feed b now) → (∀ now, i ≠ .tick now) → exec i s = .next t →
    ∃ resp : List Byte, t.responses = s.responses ++ [resp] ∧ exec i t = .next (answered t resp)) ∧
  (∀ (now : Millis) (s t : State), exec (.tick now) s = .next t →
    exec (.tick now) t = .next (answered t [0x00, 0x00]))

/-! ## Encoding -/

/-- Decode and encode agree, for every well-formed instruction (30_encoding.md section 2). -/
def Obligations.DecodeOfEncode : Prop :=
  ∀ i : Instr, i.WellFormed = true → decode (encode i) = .ok i

/-- Every record that decodes is the record of its instruction, which is well formed (30_encoding.md section 2). -/
def Obligations.EncodeOfDecode : Prop :=
  ∀ (rec : List Byte) (i : Instr), decode rec = .ok i → encode i = rec ∧ i.WellFormed = true

/-- Records written out byte by byte from the table of 30_encoding.md section 2, one for each of its ten layouts,
decode to the instructions they stand for, and those encode to them. -/
def Obligations.SampleRecordsDecode : Prop :=
  ∀ sample ∈ ([
      ([0x01, 0x00, 0x03, 0x66, 0x6F, 0x6F], .b32enc [0x66, 0x6F, 0x6F]),
      ([0x02, 0x00, 0x02, 0x4D, 0x59], .b32dec [0x4D, 0x59]),
      ([0x03, 0x00, 0x04, 0x47, 0x45, 0x5A, 0x44], .ldsec [0x47, 0x45, 0x5A, 0x44]),
      ([0x04, 0x06, 0x01, 0x02, 0x03, 0x04, 0x05, 0x06, 0x07, 0x08], .hotp 6 0x0102030405060708),
      ([0x05, 0x08, 0x11, 0x12, 0x13, 0x14, 0x21, 0x22, 0x23, 0x24, 0x25, 0x26, 0x27, 0x28],
        .totp 8 0x11121314 0x2122232425262728),
      ([0x06, 0x07, 0x01, 0x11, 0x12, 0x13, 0x14, 0x21, 0x22, 0x23, 0x24, 0x25, 0x26, 0x27, 0x28, 0x02, 0x30, 0x39],
        .verify 7 1 0x11121314 0x2122232425262728 [0x30, 0x39]),
      ([0x10, 0x55, 0x01, 0x02, 0x03, 0x04], .feed 0x55 0x01020304),
      ([0x11, 0x01, 0x02, 0x03, 0x04], .tick 0x01020304),
      ([0x12, 0x03, 0x06, 0x00, 0x01, 0xFF], .frame 0x03 0x06 [0xFF]),
      ([0x20], .status)] : List (List Byte × Instr)),
    decode sample.1 = .ok sample.2 ∧ encode sample.2 = sample.1

/-! ## The invariant -/

/-- Every step keeps the invariant of 10_state.md: R24, which the spec marks [derived], and the secret within its
160 bytes. -/
def Obligations.StepKeepsInvariant : Prop := ∀ s t : State, s.inv → step s = .next t → t.inv

/-- The reset state meets the invariant of 10_state.md sections 2 and 3. -/
def Obligations.ResetMeetsInvariant : Prop := State.reset.inv

/-- The same invariant at every well-formed choice of the parameters of 00_scope.md section 3, for every instruction
and every step; every step completes. Which choices are well formed is the model's own (log entries 5, 6). -/
def Obligations.EveryInstantiationKeepsInvariant : Prop :=
  ∀ (cfg : Config) (s : State), cfg.wf → s.invAt cfg →
    (∀ (i : Instr) (t : State), execAt cfg i s = .next t → t.invAt cfg) ∧
    ∃ t : State, stepAt cfg s = .next t ∧ t.invAt cfg

/-! ## Base32 -/

/-- R127: B32ENC, with its length error and its format error. -/
def Obligations.B32encAnswersText : Prop :=
  (∀ (data : List Byte) (s : State), data.length ≤ 160 → exec (.b32enc data) s =
    .next (answered s (0x00 :: (beBytes 2 (8 * ((data.length + 4) / 5)) ++ b32encode data)))) ∧
  (∀ (data : List Byte) (s : State), 160 < data.length → exec (.b32enc data) s = .next (answered s [0x03])) ∧
  rejectsWrongLength 0x01 (fun rec => 3 + fromBE (slice rec 1 2))

/-- R128: B32DEC, with its three errors. -/
def Obligations.B32decAnswersBytes : Prop :=
  (∀ (text out : List Byte) (s : State), text.length ≤ 256 → b32decode text = some out →
    out.length ≤ 160 ∧ exec (.b32dec text) s = .next (answered s (0x00 :: (beBytes 2 out.length ++ out)))) ∧
  (∀ (text : List Byte) (s : State), text.length ≤ 256 → (∃ c ∈ text, c ≠ 0x3D ∧ symval c = none) →
    exec (.b32dec text) s = .next (answered s [0x05, 0x00, 0x00])) ∧
  (∀ (text : List Byte) (s : State), 256 < text.length → exec (.b32dec text) s = .next (answered s [0x03])) ∧
  rejectsWrongLength 0x02 (fun rec => 3 + fromBE (slice rec 1 2))

/-- R129: LDSEC replaces the secret wholesale; a text that does not decode empties it; a text over the capacity and
a record of the wrong length leave it. -/
def Obligations.LdsecReplacesSecret : Prop :=
  (∀ (text out : List Byte) (s : State), text.length ≤ 256 → b32decode text = some out →
    out.length ≤ 160 ∧ exec (.ldsec text) s = .next { s with
      secret := out
      responses := s.responses ++ [[0x00, if out = [] then 0x00 else 0x01, BitVec.ofNat 8 out.length]] }) ∧
  (∀ (text : List Byte) (s : State), text.length ≤ 256 → (∃ c ∈ text, c ≠ 0x3D ∧ symval c = none) →
    exec (.ldsec text) s = .next { s with
      secret := [], responses := s.responses ++ [[0x05, 0x00, 0x00]] }) ∧
  (∀ (text : List Byte) (s : State), 256 < text.length → exec (.ldsec text) s = .next (answered s [0x03])) ∧
  rejectsWrongLength 0x03 (fun rec => 3 + fromBE (slice rec 1 2))

/-- R120: the value of every byte and the byte of every value. -/
def Obligations.SymbolValuesFollowAlphabet : Prop :=
  (∀ c : Byte, 0x41 ≤ c.toNat → c.toNat ≤ 0x5A → symval c = some (BitVec.ofNat 5 (c.toNat - 0x41))) ∧
  (∀ c : Byte, 0x61 ≤ c.toNat → c.toNat ≤ 0x7A → symval c = some (BitVec.ofNat 5 (c.toNat - 0x61))) ∧
  (∀ c : Byte, 0x32 ≤ c.toNat → c.toNat ≤ 0x37 → symval c = some (BitVec.ofNat 5 (c.toNat - 0x32 + 26))) ∧
  (∀ c : Byte, c.toNat < 0x32 ∨ (0x37 < c.toNat ∧ c.toNat < 0x41) ∨ (0x5A < c.toNat ∧ c.toNat < 0x61) ∨
    0x7A < c.toNat → symval c = none) ∧
  (∀ v : Symbol, symval (alpha v) = some v ∧
    (alpha v).toNat = (if v.toNat ≤ 25 then 0x41 + v.toNat else 0x32 + (v.toNat - 26)))

/-- R121: symbol j of the text is bits 5j to 5j+4 of the bytes, most significant first, with zero fill bits, and `=`
follows to a multiple of 8. -/
def Obligations.EncoderWritesMsbFirstSymbols : Prop :=
  ∀ b : List Byte,
    (b32encode b).length = 8 * ((b.length + 4) / 5) ∧
    (∀ j, j < (8 * b.length + 4) / 5 → ∃ v : Symbol, byteAt (b32encode b) j = alpha v ∧
      ∀ k, k < 5 → v.getLsbD (4 - k) = (byteAt b ((5 * j + k) / 8)).getLsbD (7 - (5 * j + k) % 8)) ∧
    (∀ j, (8 * b.length + 4) / 5 ≤ j → j < (b32encode b).length → byteAt (b32encode b) j = 0x3D)

/-- The number of `=` by the length modulo 5, and the empty text (40_base32.md section 1, R122, which the spec marks
[derived]). -/
def Obligations.PaddingCountByResidue : Prop :=
  (∀ b : List Byte, (b32encode b).count 0x3D = [0, 6, 4, 3, 1].getD (b.length % 5) 0) ∧ b32encode [] = []

/-- R123 and R124: a text fails exactly when a byte that is not `=` has no value; else byte i is bits 8i to 8i+7 of
the symbols, `=` removed wherever it stands, and the bits left over are dropped. -/
def Obligations.DecoderReadsMsbFirstBytes : Prop :=
  ∀ t u : List Byte, u = t.filter (fun c => decide (c ≠ 0x3D)) →
    (b32decode t = none ↔ ∃ c ∈ u, symval c = none) ∧
    (∀ out, b32decode t = some out → out.length = 5 * u.length / 8 ∧
      ∀ i q, i < out.length → q < 8 → ∃ v : Symbol, symval (byteAt u ((8 * i + q) / 5)) = some v ∧
        (byteAt out i).getLsbD (7 - q) = v.getLsbD (4 - (8 * i + q) % 5))

/-- `decode(encode(b)) = b` for every byte sequence (40_base32.md section 1, R126, which the spec marks
[derived]). -/
def Obligations.Base32RoundTrip : Prop := ∀ b : List Byte, b32decode (b32encode b) = some b

/-- Decoding ignores letter case and every `=` (40_base32.md section 1; 90_conflicts.md C3). -/
def Obligations.DecodeIgnoresCaseAndPadding : Prop :=
  ∀ t : List Byte, b32decode t = b32decode ((t.filter (fun c => decide (c ≠ 0x3D))).map upperCase)

/-- A failed LDSEC destroys the secret loaded before, and verification answers `NO_ANSWER` after it; B32DEC of the
same text writes nothing (70_reset_and_hazards.md section 3, R292, which the spec marks [derived]). -/
def Obligations.FailedLoadLosesSecret : Prop :=
  ∀ (s : State) (text : List Byte), text.length ≤ 256 → (∃ c ∈ text, c ≠ 0x3D ∧ symval c = none) →
    exec (.b32dec text) s = .next (answered s [0x05, 0x00, 0x00]) ∧
    ∃ t : State, exec (.ldsec text) s = .next t ∧ t.secret = [] ∧
      (∀ (d : Byte) (counter : Word64), 1 ≤ d.toNat → d.toNat ≤ 10 →
        exec (.hotp d counter) t = .next (answered t [0x06])) ∧
      (∀ (d : Byte) (window : Word32) (time : Word64) (code : List Byte), 1 ≤ d.toNat → d.toNat ≤ 10 →
        window ≠ 0 → exec (.verify d 1 window time code) t = .next (answered t [0x07]))

/-! ## The OTP engine -/

/-- R150: the padding, the least zero count, whole blocks, and the big-endian words. -/
def Obligations.Sha1PadsToWholeBlocks : Prop :=
  ∀ m : List Byte, ∃ k : Nat,
    sha1Pad m = m ++ [0x80] ++ List.replicate k 0x00 ++ beBytes 8 (8 * m.length) ∧
    (m.length + 1 + k) % 64 = 56 ∧ (∀ k', k' < k → (m.length + 1 + k') % 64 ≠ 56) ∧
    (sha1Pad m).length % 64 = 0 ∧ (wordsOf (sha1Pad m)).length = (sha1Pad m).length / 4 ∧
    (∀ j, 4 * j + 4 ≤ (sha1Pad m).length →
      (wordsOf (sha1Pad m)).getD j 0 = BitVec.ofNat 32 (fromBE (slice (sha1Pad m) (4 * j) 4)))

/-- R152: the message schedule of one block. -/
def Obligations.ScheduleFollowsRecurrence : Prop :=
  ∀ block : List Word32, block.length = 16 →
    (schedule block).length = 80 ∧
    (∀ t, t < 16 → (schedule block).getD t 0 = block.getD t 0) ∧
    (∀ t, 16 ≤ t → t < 80 → (schedule block).getD t 0 =
      rotl 1 ((schedule block).getD (t - 3) 0 ^^^ (schedule block).getD (t - 8) 0 ^^^
        (schedule block).getD (t - 14) 0 ^^^ (schedule block).getD (t - 16) 0))

/-- R151, R153, R154 and R155: SHA-1 is the five words after the compressions of all blocks in order, from the initial
hash value; each compression is the loop over t = 0..79, with `f_t` and `K_t` of the table, and the five sums; and the
two check values. -/
def Obligations.CompressionIsEightyRounds : Prop :=
  (∀ (h : Sha1Regs) (block : List Word32), block.length = 16 →
    sha1Compress h block =
      { a := h.a + ((List.range 80).foldl (roundOf (schedule block)) h).a
        b := h.b + ((List.range 80).foldl (roundOf (schedule block)) h).b
        c := h.c + ((List.range 80).foldl (roundOf (schedule block)) h).c
        d := h.d + ((List.range 80).foldl (roundOf (schedule block)) h).d
        e := h.e + ((List.range 80).foldl (roundOf (schedule block)) h).e }) ∧
  (∀ (m : List Byte) (h : Sha1Regs), h = hashOfBlocks (sha1Pad m) →
    sha1 m = beBytes 4 h.a.toNat ++ beBytes 4 h.b.toNat ++ beBytes 4 h.c.toNat ++ beBytes 4 h.d.toNat ++
      beBytes 4 h.e.toNat ∧ (sha1 m).length = 20) ∧
  fromBE (sha1 []) = 0xda39a3ee5e6b4b0d3255bfef95601890afd80709 ∧
  fromBE (sha1 [0x61, 0x62, 0x63]) = 0xa9993e364706816aba3e25717850c26c9cd0d89d

/-- R156: the prepared key is 64 bytes, both branches; so a long key acts as its digest and zero bytes after a short
key change nothing. -/
def Obligations.HmacPreparesKey : Prop :=
  (∀ k : List Byte, (hmacKey k).length = 64) ∧
  (∀ k : List Byte, 64 < k.length → hmacKey k = sha1 k ++ List.replicate 44 0x00) ∧
  (∀ k : List Byte, k.length ≤ 64 → hmacKey k = k ++ List.replicate (64 - k.length) 0x00) ∧
  (∀ k m : List Byte, 64 < k.length → hmacSha1 k m = hmacSha1 (sha1 k) m) ∧
  (∀ (k m : List Byte) (z : Nat), k.length + z ≤ 64 → hmacSha1 (k ++ List.replicate z 0x00) m = hmacSha1 k m)

/-- R157: the two nested hashes over the key with ipad and opad, bytewise; the result is 20 bytes. -/
def Obligations.HmacNestsTwoHashes : Prop :=
  ∀ k m : List Byte,
    hmacSha1 k m = sha1 (List.zipWith (· ^^^ ·) (hmacKey k) (List.replicate 64 0x5C) ++
      sha1 (List.zipWith (· ^^^ ·) (hmacKey k) (List.replicate 64 0x36) ++ m)) ∧
    (hmacSha1 k m).length = 20

/-- R159: the offset, the four bytes big-endian, the sign bit masked off; no byte past HS[18] is read. -/
def Obligations.TruncationReadsFourBytes : Prop :=
  ∀ (hs : List Byte) (off : Nat), hs.length = 20 → off = (byteAt hs 19 &&& 0x0F).toNat →
    off + 3 ≤ 18 ∧ truncateDigest hs < 2 ^ 31 ∧
    truncateDigest hs = ((byteAt hs off).toNat * 2 ^ 24 + (byteAt hs (off + 1)).toNat * 2 ^ 16 +
      (byteAt hs (off + 2)).toNat * 2 ^ 8 + (byteAt hs (off + 3)).toNat) &&& 0x7FFFFFFF

/-- R160: the reduction modulo 10^d and the bounds of every code. -/
def Obligations.CodeIsReducedModuloPowerOfTen : Prop :=
  ∀ (key : List Byte) (counter d : Nat),
    hotp key counter d = truncateDigest (hmacSha1 key (beBytes 8 counter)) % 10 ^ d ∧
    hotp key counter 10 = truncateDigest (hmacSha1 key (beBytes 8 counter)) ∧
    hotp key counter d < 10 ^ d ∧ hotp key counter d < 2 ^ 31

/-- The laws (c) and (d) of 41_hotp_totp.md section 2 (R163, which the spec marks [derived]): equal windows give
equal codes, and a short code is the full code's last digits, as numbers and as text. -/
def Obligations.OtpWindowAndSuffixLaws : Prop :=
  (∀ (key : List Byte) (t t' w d : Nat), t / w = t' / w → totp key t w d = totp key t' w d) ∧
  (∀ (key : List Byte) (c d : Nat), 1 ≤ d → d ≤ 10 →
    hotp key c d = hotp key c 10 % 10 ^ d ∧ decText (hotp key c d) d = (decText (hotp key c 10) 10).drop (10 - d))

/-- R91: the decimal text has d ASCII digits whose number, most significant first, is the code. -/
def Obligations.DecimalTextIsFixedWidth : Prop :=
  (∀ code d : Nat, (decText code d).length = d ∧
    (∀ b ∈ decText code d, 0x30 ≤ b.toNat ∧ b.toNat ≤ 0x39) ∧
    (code < 10 ^ d → (decText code d).foldl (fun acc b => acc * 10 + (b.toNat - 0x30)) 0 = code)) ∧
  decText 4 6 = [0x30, 0x30, 0x30, 0x30, 0x30, 0x34]

/-- R170: HOTP, with its three errors. -/
def Obligations.HotpAnswersCode : Prop :=
  (∀ (d : Byte) (counter : Word64) (s : State), 1 ≤ d.toNat → d.toNat ≤ 10 → s.secret ≠ [] →
    exec (.hotp d counter) s =
      .next (answered s (0x00 :: beBytes 4 (hotp s.secret counter.toNat d.toNat)))) ∧
  (∀ (d : Byte) (counter : Word64) (s : State), d.toNat = 0 ∨ 10 < d.toNat →
    exec (.hotp d counter) s = .next (answered s [0x04])) ∧
  (∀ (d : Byte) (counter : Word64) (s : State), 1 ≤ d.toNat → d.toNat ≤ 10 → s.secret = [] →
    exec (.hotp d counter) s = .next (answered s [0x06])) ∧
  rejectsWrongLength 0x04 (fun _ => 10)

/-- R172: TOTP, with its three errors. -/
def Obligations.TotpAnswersCode : Prop :=
  (∀ (d : Byte) (window : Word32) (time : Word64) (s : State), 1 ≤ d.toNat → d.toNat ≤ 10 → window ≠ 0 →
    s.secret ≠ [] → exec (.totp d window time) s =
      .next (answered s (0x00 :: beBytes 4 (hotp s.secret (time.toNat / window.toNat) d.toNat)))) ∧
  (∀ (d : Byte) (window : Word32) (time : Word64) (s : State), d.toNat = 0 ∨ 10 < d.toNat ∨ window = 0 →
    exec (.totp d window time) s = .next (answered s [0x04])) ∧
  (∀ (d : Byte) (window : Word32) (time : Word64) (s : State), 1 ≤ d.toNat → d.toNat ≤ 10 → window ≠ 0 →
    s.secret = [] → exec (.totp d window time) s = .next (answered s [0x06])) ∧
  rejectsWrongLength 0x05 (fun _ => 14)

/-- R175: VERIFY, its verdict and its three errors; the comparison is of the whole text. -/
def Obligations.VerifyAnswersVerdict : Prop :=
  (∀ (d : Byte) (window : Word32) (time : Word64) (code : List Byte) (s : State), 1 ≤ d.toNat → d.toNat ≤ 10 →
    window ≠ 0 → s.secret ≠ [] → exec (.verify d 1 window time code) s = .next (answered s
      [0x00, if code = decText (totp s.secret time.toNat window.toNat d.toNat) d.toNat then 0x00 else 0x01])) ∧
  (∀ (d flags : Byte) (window : Word32) (time : Word64) (code : List Byte) (s : State),
    2 ≤ flags.toNat ∨ d.toNat = 0 ∨ 10 < d.toNat ∨ window = 0 →
    exec (.verify d flags window time code) s = .next (answered s [0x04])) ∧
  (∀ (d flags : Byte) (window : Word32) (time : Word64) (code : List Byte) (s : State), flags.toNat < 2 →
    1 ≤ d.toNat → d.toNat ≤ 10 → window ≠ 0 → flags.toNat = 0 ∨ s.secret = [] →
    exec (.verify d flags window time code) s = .next (answered s [0x07])) ∧
  rejectsWrongLength 0x06 (fun rec => 16 + (byteAt rec 15).toNat)

/-- 41_hotp_totp.md section 3 (R177, which the spec marks [derived]): a code generated at t_m is accepted at t_e
exactly when the two times' codes are equal, always so within one window, and with w = 300 the skew is then between
-299 and +299. -/
def Obligations.VerifyAcceptsCodeOfSameWindow : Prop :=
  ∀ (s : State) (d : Byte) (window : Word32) (tm te : Word64), 1 ≤ d.toNat → d.toNat ≤ 10 → window ≠ 0 →
    s.secret ≠ [] → ∃ verdict : Byte,
      exec (.verify d 1 window te (decText (totp s.secret tm.toNat window.toNat d.toNat) d.toNat)) s =
        .next (answered s [0x00, verdict]) ∧
      (verdict = 0x00 ∨ verdict = 0x01) ∧
      (verdict = 0x00 ↔ totp s.secret tm.toNat window.toNat d.toNat = totp s.secret te.toNat window.toNat d.toNat) ∧
      (tm.toNat / window.toNat = te.toNat / window.toNat → verdict = 0x00) ∧
      (window = 300 → tm.toNat / window.toNat = te.toNat / window.toNat →
        te.toNat ≤ tm.toNat + 299 ∧ tm.toNat ≤ te.toNat + 299)

/-! ## The frame codec -/

/-- R201 and R203: an accepted byte stays in the buffer and its clock sample is kept; in every state of R24
(`RxBufOk`), every other byte leaves the buffer empty and `RX_LAST_MS` as it was, with the event of its judgement, and
the buffer's capacity is not exceeded even with the byte appended; a record not of 6 bytes ends in `ERR_FORMAT`. -/
def Obligations.FeedKeepsAcceptedByte : Prop :=
  (∀ (s : State) (byte : Byte) (now : Millis), acceptsByte s.rxBuf byte →
    exec (.feed byte now) s = .next { s with
      rxBuf := s.rxBuf ++ [byte], rxLastMs := now, responses := s.responses ++ [[0x00, 0x00]] }) ∧
  (∀ (s : State) (byte : Byte) (now : Millis), RxBufOk s.rxBuf → ¬ acceptsByte s.rxBuf byte →
    exec (.feed byte now) s = .next { s with
      rxBuf := [], responses := s.responses ++ [0x00 :: closingEvent s.rxBuf byte] }) ∧
  (∀ (s : State) (byte : Byte), RxBufOk s.rxBuf → (s.rxBuf ++ [byte]).length ≤ Config.hardware.rxCapacity) ∧
  rejectsWrongLength 0x10 (fun _ => 6)

/-- R206: a refused header byte clears the buffer and is cleared with it, `RX_LAST_MS` unchanged, and the next byte is
judged at offset 0. -/
def Obligations.FeedRefusesHeaderByte : Prop :=
  (∀ (s : State) (byte : Byte) (now : Millis), s.rxBuf.length = 0 → byte ≠ 0x55 →
    exec (.feed byte now) s = .next { s with
      rxBuf := [], responses := s.responses ++ [[0x00, 0x03, 0x00, byte]] }) ∧
  (∀ (s : State) (byte : Byte) (now : Millis), s.rxBuf.length = 1 → byte ≠ 0xAA →
    exec (.feed byte now) s = .next { s with
      rxBuf := [], responses := s.responses ++ [[0x00, 0x03, 0x01, byte]] })

/-- R205: the checksum byte of a valid frame hands on version, command id, length and payload, and clears the
buffer. -/
def Obligations.FeedCompletesValidFrame : Prop :=
  ∀ (s : State) (byte : Byte) (now : Millis), 6 ≤ s.rxBuf.length →
    s.rxBuf.length = 6 + be16 (byteAt s.rxBuf 4) (byteAt s.rxBuf 5) → byte = byteSum s.rxBuf →
    exec (.feed byte now) s = .next { s with
      rxBuf := []
      responses := s.responses ++ [[0x00, 0x01, byteAt s.rxBuf 2, byteAt s.rxBuf 3, byteAt s.rxBuf 4,
        byteAt s.rxBuf 5] ++ s.rxBuf.drop 6] }

/-- R207: a checksum mismatch clears the buffer, hands no frame on, and reports both checksums. -/
def Obligations.FeedRejectsBadChecksum : Prop :=
  ∀ (s : State) (byte : Byte) (now : Millis), 6 ≤ s.rxBuf.length →
    s.rxBuf.length = 6 + be16 (byteAt s.rxBuf 4) (byteAt s.rxBuf 5) → byte ≠ byteSum s.rxBuf →
    exec (.feed byte now) s = .next { s with
      rxBuf := [], responses := s.responses ++ [[0x00, 0x02, byte, byteSum s.rxBuf]] }

/-- R209 and R210: TICK clears a non-empty buffer when strictly more than 300 ms have passed modulo 2^32, and does
nothing else. -/
def Obligations.TickClearsStalledFrame : Prop :=
  (∀ (s : State) (now : Millis), 300 < (now.toNat + 2 ^ 32 - s.rxLastMs.toNat) % 2 ^ 32 → s.rxBuf ≠ [] →
    exec (.tick now) s = .next { s with
      rxBuf := [], responses := s.responses ++ [0x00 :: 0x04 :: beBytes 4 s.rxBuf.length] }) ∧
  (∀ (s : State) (now : Millis), (now.toNat + 2 ^ 32 - s.rxLastMs.toNat) % 2 ^ 32 ≤ 300 ∨ s.rxBuf = [] →
    exec (.tick now) s = .next (answered s [0x00, 0x00])) ∧
  rejectsWrongLength 0x11 (fun _ => 5)

/-- R211: FRAME builds the whole frame in wire order, its checksum the byte-wise sum of all bytes before it. -/
def Obligations.FrameBuildsWireFrame : Prop :=
  (∀ (s : State) (version cmd : Byte) (payload body : List Byte), payload.length < 65536 →
    body = [0x55, 0xAA, version, cmd, BitVec.ofNat 8 (payload.length / 256), BitVec.ofNat 8 (payload.length % 256)]
      ++ payload →
    exec (.frame version cmd payload) s = .next (answered s (0x00 :: (body ++ [byteSum body]))) ∧
      (body ++ [byteSum body]).length = 7 + payload.length) ∧
  rejectsWrongLength 0x12 (fun rec => 5 + fromBE (slice rec 3 2))

/-- R213: STATUS reads the status word and `RX_LAST_MS` and writes nothing. -/
def Obligations.StatusReadsState : Prop :=
  (∀ s : State, exec .status s =
    .next (answered s (0x00 :: (beBytes 4 s.statusWord.toNat ++ beBytes 4 s.rxLastMs.toNat)))) ∧
  (∀ s : State, s.statusWord = BitVec.ofNat 32 s.rxBuf.length ||| (BitVec.ofNat 32 s.secret.length <<< 17) |||
    ((if 0 < s.secret.length then 1 else 0) <<< 25) ||| ((if s.rxBuf.length = 0 then 1 else 0) <<< 26)) ∧
  rejectsWrongLength 0x20 (fun _ => 1)

/-- R31: the fields of the status word, for buffers within the ranges the rule gives, and its value after reset. -/
def Obligations.StatusWordFields : Prop :=
  (∀ s : State, s.rxBuf.length ≤ 65541 → s.secret.length ≤ 160 →
    s.statusWord.toNat % 2 ^ 17 = s.rxBuf.length ∧
    s.statusWord.toNat / 2 ^ 17 % 2 ^ 8 = s.secret.length ∧
    s.statusWord.toNat / 2 ^ 25 % 2 = (if s.secret = [] then 0 else 1) ∧
    s.statusWord.toNat / 2 ^ 26 % 2 = (if s.rxBuf = [] then 1 else 0) ∧
    s.statusWord.toNat / 2 ^ 27 = 0) ∧
  State.reset.statusWord = 0x04000000

/-- Loop-back (42_frame_codec.md section 3, R212, which the spec marks [derived]): from an empty buffer, the bytes
FRAME produces, fed in order at any times, give NONE for each but the last and the frame for the last. -/
def Obligations.LoopBackDecodesFrame : Prop :=
  ∀ (s : State) (version cmd : Byte) (payload : List Byte) (times : List Millis), payload.length < 65536 →
    s.rxBuf = [] → times.length = 7 + payload.length →
    execAll (feedList ((frameBytes version cmd payload).zip times)) s = .next { s with
      rxBuf := []
      rxLastMs := times.getD (5 + payload.length) 0
      responses := s.responses ++ List.replicate (6 + payload.length) [0x00, 0x00] ++
        [frameOkResponse version cmd payload] }

/-- Resynchronisation (42_frame_codec.md section 5, R214, which the spec marks [derived]; 90_conflicts.md C2): garbage
without a byte 0x55, then a frame, still gives the frame. -/
def Obligations.GarbageWithoutHeaderByteIsSkipped : Prop :=
  ∀ (s : State) (garbage : List (Byte × Millis)) (version cmd : Byte) (payload : List Byte) (times : List Millis),
    payload.length < 65536 → s.rxBuf = [] → times.length = 7 + payload.length → (∀ p ∈ garbage, p.1 ≠ 0x55) →
    execAll (feedList (garbage ++ (frameBytes version cmd payload).zip times)) s = .next { s with
      rxBuf := []
      rxLastMs := times.getD (5 + payload.length) 0
      responses := s.responses ++ garbage.map (fun p => [0x00, 0x03, 0x00, p.1]) ++
        List.replicate (6 + payload.length) [0x00, 0x00] ++ [frameOkResponse version cmd payload] }

/-- A stray 0x55 loses the frame after it (42_frame_codec.md section 1, R206; 90_conflicts.md C2): with 0x55 alone in
the buffer, a frame whose only 0x55 is its first byte is refused byte by byte. -/
def Obligations.StrayHeaderByteLosesFrame : Prop :=
  ∀ (s : State) (version cmd : Byte) (payload : List Byte) (times : List Millis), s.rxBuf = [0x55] →
    times.length = 7 + payload.length → 0x55 ∉ (frameBytes version cmd payload).drop 1 →
    execAll (feedList ((frameBytes version cmd payload).zip times)) s = .next { s with
      rxBuf := []
      responses := s.responses ++ [[0x00, 0x03, 0x01, 0x55]] ++
        ((frameBytes version cmd payload).drop 1).map (fun b => [0x00, 0x03, 0x00, b]) }

/-- Error detection (42_frame_codec.md section 5, R216, which the spec marks [derived]): one inverted bit in the
version, the command id, the payload or the checksum always yields CSUM_ERR; in byte 0 or 1 it yields HDR_DISCARD. -/
def Obligations.SingleBitErrorsAreDetected : Prop :=
  (∀ (s : State) (version cmd : Byte) (payload bytes : List Byte) (times : List Millis) (j k : Nat),
    payload.length < 65536 → s.rxBuf = [] → times.length = 7 + payload.length → k < 8 →
    j = 2 ∨ j = 3 ∨ (6 ≤ j ∧ j ≤ 6 + payload.length) → bytes = flipBit (frameBytes version cmd payload) j k →
    byteAt bytes (6 + payload.length) ≠ byteSum (bytes.take (6 + payload.length)) ∧
    execAll (feedList (bytes.zip times)) s = .next { s with
      rxBuf := []
      rxLastMs := times.getD (5 + payload.length) 0
      responses := s.responses ++ List.replicate (6 + payload.length) [0x00, 0x00] ++
        [[0x00, 0x02, byteAt bytes (6 + payload.length), byteSum (bytes.take (6 + payload.length))]] }) ∧
  (∀ (s : State) (version cmd : Byte) (payload bytes : List Byte) (times : List Millis) (j k : Nat),
    s.rxBuf = [] → times.length = j + 1 → k < 8 → j < 2 → bytes = flipBit (frameBytes version cmd payload) j k →
    execAll (feedList ((bytes.take (j + 1)).zip times)) s = .next { s with
      rxBuf := []
      rxLastMs := if j = 0 then s.rxLastMs else times.getD 0 0
      responses := s.responses ++ List.replicate j [0x00, 0x00] ++
        [[0x00, 0x03, BitVec.ofNat 8 j, byteAt bytes j]] })

/-! ## Parameters and the assembler -/

/-- `exec` and `step` are the machine at the defaults of 00_scope.md section 3, which are well formed (the predicate
is the model's own, log entries 5 and 6); and at every well-formed choice TICK obeys the timeout and the clock
width it is built with. That the elapsed time is then taken modulo 2^NOW_WIDTH is the model's choice (log entry 6):
the spec writes 2^32, the default. -/
def Obligations.HardwareIsDefaultInstantiation : Prop :=
  (∀ (i : Instr) (s : State), exec i s = execAt Config.hardware i s) ∧
  (∀ s : State, step s = stepAt Config.hardware s) ∧ Config.hardware.wf ∧
  (∀ (cfg : Config) (s : State) (now : Millis), cfg.wf → s.rxBuf ≠ [] →
    (cfg.rxTimeoutMs.toNat < (now.toNat + 2 ^ 32 - s.rxLastMs.toNat) % 2 ^ cfg.nowWidth ↔
      execAt cfg (.tick now) s = .next { s with
        rxBuf := [], responses := s.responses ++ [0x00 :: 0x04 :: beBytes 4 s.rxBuf.length] }))

/-- R93: the three pseudo-instructions' expansions, and the step of FEEDS defaulting to 0. -/
def Obligations.PseudoInstructionsExpand : Prop :=
  (∀ (bytes : List Byte) (t s : Millis), (feeds bytes t s).length = bytes.length ∧
    ∀ k, k < bytes.length → (feeds bytes t s)[k]? = some (.feed (byteAt bytes k) (t + BitVec.ofNat 32 k * s))) ∧
  (∀ (bytes : List Byte) (t : Nat), bytes ≠ [] → t < 2 ^ 32 →
    parseFeeds [.hexBytes bytes, .punct ',', .punct '@', .num t] = some (feeds bytes (BitVec.ofNat 32 t) 0)) ∧
  (∀ (d : Byte) (tv : Bool) (time : Word64) (code : List Byte),
    unlock d tv time code = .verify d (if tv then 1 else 0) 300 time code) ∧
  (∀ (cmd : Byte) (payload : List Byte), reply cmd payload = .frame 0x00 cmd payload)

/-- Every line the assembler accepts gives instructions that fit their records, and FEEDS of an empty byte string,
which 30_encoding.md section 5 does not write, gives none (the assembler's treatment of numbers too wide and of the
empty string is the model's choice, log entry 8). -/
def Obligations.AssembledInstructionsAreWellFormed : Prop :=
  (∀ (src : String) (is : List Instr), assemble src = some is → ∀ i ∈ is, i.WellFormed = true) ∧
  ∀ t : Nat, t < 2 ^ 32 → parseFeeds [.hexBytes [], .punct ',', .punct '@', .num t] = some []

/-- UNLOCK_DIGITS, which 92_eei_decisions.md row P1 leaves open, is an integer in 1..10 whatever it is (log entry 7),
so UNLOCK with it is answered by a verdict when time and secret are valid. -/
def Obligations.UnlockOfMcuIsAnswered : Prop :=
  1 ≤ Config.unlockDigits.toNat ∧ Config.unlockDigits.toNat ≤ 10 ∧
  ∀ (s : State) (time : Word64) (code : List Byte), s.secret ≠ [] →
    ∃ verdict : Byte, (verdict = 0x00 ∨ verdict = 0x01) ∧
      exec (unlockOfMcu true time code) s = .next (answered s [0x00, verdict])

/-- Decode and encode agree at every well-formed choice of the parameters of 00_scope.md section 3, and a shorter or
longer record is refused; at the defaults both are the hardware's. What a width other than the default makes of the
record layouts is the model's choice (log entry 6). -/
def Obligations.EveryInstantiationDecodesItsRecords : Prop :=
  (∀ (cfg : Config) (i : Instr), cfg.wf → i.WellFormed = true → i.operandsFit cfg = true →
    decodeAt cfg (encodeAt cfg i) = .ok i) ∧
  (∀ (cfg : Config) (rec : List Byte) (i : Instr), cfg.wf → decodeAt cfg rec = .ok i →
    encodeAt cfg i = rec ∧ i.WellFormed = true ∧ i.operandsFit cfg = true) ∧
  (∀ i : Instr, i.operandsFit Config.hardware = true ∧ encodeAt Config.hardware i = encode i) ∧
  (∀ rec : List Byte, decodeAt Config.hardware rec = decode rec)
end

