-- ==== Sys2Proof/Laws/Base32.lean ====
section
/-! SUPPORT. The small lemmas of the base32 functions. -/

namespace Sys2Proof.Machine

open Sys2Proof

@[simp] theorem byteBits_length (b : Byte) : (byteBits b).length = 8 := rfl

@[simp] theorem symbolBits_length (v : Symbol) : (symbolBits v).length = 5 := rfl

theorem flatMap_byteBits_length (b : List Byte) : (b.flatMap byteBits).length = 8 * b.length := by
  induction b with
  | nil => rfl
  | cons x b ih => simp [ih]; omega

theorem flatMap_symbolBits_length (v : List Symbol) : (v.flatMap symbolBits).length = 5 * v.length := by
  induction v with
  | nil => rfl
  | cons x v ih => simp [ih]; omega

/-- One symbol for each whole group of five bits. -/
theorem symbolGroups_length : ∀ bits : List Bool, (symbolGroups bits).length = bits.length / 5
  | [] => by simp [symbolGroups]
  | [_] => by simp [symbolGroups]
  | [_, _] => by simp [symbolGroups]
  | [_, _, _] => by simp [symbolGroups]
  | [_, _, _, _] => by simp [symbolGroups]
  | _ :: _ :: _ :: _ :: _ :: rest => by
    simp only [symbolGroups, List.length_cons, symbolGroups_length rest]
    omega

/-- One byte for each whole group of eight bits. -/
theorem byteGroups_length : ∀ bits : List Bool, (byteGroups bits).length = bits.length / 8
  | [] => by simp [byteGroups]
  | [_] => by simp [byteGroups]
  | [_, _] => by simp [byteGroups]
  | [_, _, _] => by simp [byteGroups]
  | [_, _, _, _] => by simp [byteGroups]
  | [_, _, _, _, _] => by simp [byteGroups]
  | [_, _, _, _, _, _] => by simp [byteGroups]
  | [_, _, _, _, _, _, _] => by simp [byteGroups]
  | _ :: _ :: _ :: _ :: _ :: _ :: _ :: _ :: rest => by
    simp only [byteGroups, List.length_cons, byteGroups_length rest]
    omega

/-- The two ways the values of a text come out: one byte has none, or every byte has its value in place. -/
theorem symvals_cases (t : List Byte) :
    (symvals t = none ∧ ∃ c ∈ t, symval c = none) ∨
    (∃ vs, symvals t = some vs ∧ vs.length = t.length ∧ t.map symval = vs.map some) := by
  induction t with
  | nil => exact .inr ⟨[], rfl, rfl, rfl⟩
  | cons c t ih =>
    cases hc : symval c with
    | none => exact .inl ⟨by simp [symvals, hc], c, by simp, hc⟩
    | some v =>
      rcases ih with ⟨h, d, hd, hn⟩ | ⟨vs, h, hl, hm⟩
      · exact .inl ⟨by simp [symvals, hc, h], d, by simp [hd], hn⟩
      · exact .inr ⟨v :: vs, by simp [symvals, hc, h], by simp [hl], by simp [hc, hm]⟩

/-- The bytes a successful decode gives number `floor(5n/8)` for the n bytes that are not `=`. -/
theorem b32decode_length_le {t out : List Byte} (h : b32decode t = some out) :
    out.length ≤ 5 * t.length / 8 := by
  unfold b32decode at h
  rcases symvals_cases (t.filter (fun c => decide (c ≠ padByte))) with ⟨hn, _⟩ | ⟨vs, hv, hl, _⟩
  · rw [hn] at h
    cases h
  · rw [hv] at h
    cases h
    have hf := List.length_filter_le (fun c => decide (c ≠ padByte)) t
    rw [byteGroups_length, flatMap_symbolBits_length, hl]
    omega

/-- The two ways B32ENC ends (R127). -/
theorem b32encAt_cases (cfg : Config) (data : List Byte) (s : State) :
    (cfg.b32BytesMax < data.length ∧ b32encAt cfg data s = .next (s.raise .errLength)) ∨
    (data.length ≤ cfg.b32BytesMax ∧ b32encAt cfg data s =
      .next (s.respond .ok (beBytes 2 (b32encode data).length ++ b32encode data))) := by
  by_cases h : data.length > cfg.b32BytesMax
  · exact .inl ⟨h, if_pos h⟩
  · exact .inr ⟨Nat.le_of_not_lt h, if_neg h⟩

/-- The three ways B32DEC ends (R128). -/
theorem b32decAt_cases (cfg : Config) (text : List Byte) (s : State) :
    (cfg.b32TextMax < text.length ∧ b32decAt cfg text s = .next (s.raise .errLength)) ∨
    (text.length ≤ cfg.b32TextMax ∧ b32decode text = none ∧
      b32decAt cfg text s = .next (s.respond .errB32Symbol (beBytes 2 0))) ∨
    (∃ out, text.length ≤ cfg.b32TextMax ∧ b32decode text = some out ∧
      b32decAt cfg text s = .next (s.respond .ok (beBytes 2 out.length ++ out))) := by
  by_cases h : text.length > cfg.b32TextMax
  · exact .inl ⟨h, if_pos h⟩
  · have hle := Nat.le_of_not_lt h
    cases hd : b32decode text with
    | none => exact .inr (.inl ⟨hle, rfl, by simp only [b32decAt, if_neg h, hd]⟩)
    | some out => exact .inr (.inr ⟨out, hle, rfl, by simp only [b32decAt, if_neg h, hd]⟩)

/-- The three ways LDSEC ends (R129). -/
theorem ldsecAt_cases (cfg : Config) (text : List Byte) (s : State) :
    (cfg.b32TextMax < text.length ∧ ldsecAt cfg text s = .next (s.raise .errLength)) ∨
    (text.length ≤ cfg.b32TextMax ∧ b32decode text = none ∧
      ldsecAt cfg text s = .next ((s.setSecret []).respond .errB32Symbol [0x00, 0x00])) ∨
    (∃ out, text.length ≤ cfg.b32TextMax ∧ b32decode text = some out ∧
      ldsecAt cfg text s = .next ((s.setSecret out).respond .ok
        [if out.length > 0 then 0x01 else 0x00, BitVec.ofNat 8 out.length])) := by
  by_cases h : text.length > cfg.b32TextMax
  · exact .inl ⟨h, if_pos h⟩
  · have hle := Nat.le_of_not_lt h
    cases hd : b32decode text with
    | none => exact .inr (.inl ⟨hle, rfl, by simp only [ldsecAt, if_neg h, hd]⟩)
    | some out => exact .inr (.inr ⟨out, hle, rfl, by simp only [ldsecAt, if_neg h, hd]⟩)

end Sys2Proof.Machine
end

