-- ==== Sys2Proof/Laws/Bytes.lean ====
section
/-! SUPPORT. Big-endian fields, the byte sum and slices: the small lemmas of Machine/Operands. -/

namespace Sys2Proof.Machine

open Sys2Proof

@[simp] theorem beBytes_length (n v : Nat) : (beBytes n v).length = n := by
  induction n generalizing v with
  | zero => rfl
  | succ n ih => simp [beBytes, ih]

/-- The fold of `fromBE` from any accumulator. -/
theorem fromBE_foldl (acc : Nat) (s : List Byte) :
    s.foldl (fun a b => a * 256 + b.toNat) acc = acc * 256 ^ s.length + fromBE s := by
  induction s generalizing acc with
  | nil => simp [fromBE]
  | cons b s ih =>
    simp only [List.foldl_cons, fromBE, List.length_cons]
    rw [ih, ih (0 * 256 + b.toNat)]
    ring

@[simp] theorem fromBE_nil : fromBE [] = 0 := rfl

theorem fromBE_cons (b : Byte) (s : List Byte) : fromBE (b :: s) = b.toNat * 256 ^ s.length + fromBE s := by
  rw [fromBE, List.foldl_cons, fromBE_foldl]; simp

theorem fromBE_append (s t : List Byte) : fromBE (s ++ t) = fromBE s * 256 ^ t.length + fromBE t := by
  rw [fromBE, List.foldl_append, fromBE_foldl]; rfl

theorem fromBE_lt (s : List Byte) : fromBE s < 256 ^ s.length := by
  induction s with
  | nil => simp
  | cons b s ih =>
    rw [fromBE_cons, List.length_cons, Nat.pow_succ]
    have hb := b.isLt
    nlinarith [Nat.mul_le_mul_right (256 ^ s.length) (Nat.le_sub_one_of_lt hb)]

/-- Reading back a big-endian field gives the number, modulo the field's width. -/
theorem fromBE_beBytes (n v : Nat) : fromBE (beBytes n v) = v % 256 ^ n := by
  induction n generalizing v with
  | zero => simp [beBytes, Nat.mod_one]
  | succ n ih =>
    rw [beBytes, fromBE_cons, ih, beBytes_length, BitVec.toNat_ofNat]
    have h := Nat.mod_mul (x := v) (a := 256 ^ n) (b := 256)
    rw [show 256 ^ (n + 1) = 256 ^ n * 256 from pow_succ 256 n, h]
    norm_num
    ring

/-- A byte string is the big-endian field of its own number. -/
theorem beBytes_fromBE (s : List Byte) : beBytes s.length (fromBE s) = s := by
  induction s with
  | nil => rfl
  | cons b s ih =>
    have hlt := fromBE_lt s
    have hpos : 0 < 256 ^ s.length := Nat.pow_pos (by omega)
    have hmod : ∀ n v k, beBytes n (k * 256 ^ n + v) = beBytes n v := by
      intro n
      induction n with
      | zero => intros; rfl
      | succ n ihn =>
        intro v k
        have hp : 0 < 256 ^ n := Nat.pow_pos (by omega)
        have e : k * 256 ^ (n + 1) + v = k * 256 * 256 ^ n + v := by ring
        simp only [beBytes]
        rw [e, ihn, Nat.add_comm, Nat.add_mul_div_right _ _ hp]
        congr 1
        apply BitVec.eq_of_toNat_eq
        simp only [BitVec.toNat_ofNat]
        omega
    rw [List.length_cons, fromBE_cons, beBytes, hmod, ih]
    congr 1
    apply BitVec.eq_of_toNat_eq
    rw [BitVec.toNat_ofNat, Nat.add_comm, Nat.add_mul_div_right _ _ hpos, Nat.div_eq_of_lt hlt]
    have := b.isLt
    omega

@[simp] theorem slice_length (s : List Byte) (i n : Nat) : (slice s i n).length = min n (s.length - i) := by
  simp [slice]

@[simp] theorem sum8_nil : sum8 [] = 0 := rfl

/-- The running sum takes one more byte by adding it. -/
theorem sum8_append_singleton (s : List Byte) (b : Byte) : sum8 (s ++ [b]) = sum8 s + b := by
  simp [sum8]

@[simp] theorem byteAt_append_left {s t : List Byte} {i : Nat} (h : i < s.length) :
    byteAt (s ++ t) i = byteAt s i := by
  exact List.getD_append _ _ _ _ h

@[simp] theorem decText_length (code d : Nat) : (decText code d).length = d := by
  induction d with
  | zero => rfl
  | succ d ih => simp [decText, ih]

end Sys2Proof.Machine
end

