-- ==== Sys2Proof/Laws/Decode.lean ====
section
/-! SUPPORT. What `opcodeOf`, `decodeAt` and `decode` can answer, once. -/

namespace Sys2Proof

open Sys2Proof.Machine

/-- A first byte is either outside the table or the byte of its opcode. -/
theorem opcodeOf_cases (b : Byte) : opcodeOf b = none ∨ ∃ op, opcodeOf b = some op ∧ b = op.byte := by
  unfold opcodeOf
  split <;>
    first
    | exact .inl rfl
    | exact .inr ⟨_, rfl, BitVec.eq_of_toNat_eq (by simpa [Opcode.byte] using ‹_›)⟩

@[simp] theorem opcodeOf_byte (op : Opcode) : opcodeOf op.byte = some op := by cases op <;> rfl

/-- A record is never shorter than its fixed part. -/
theorem minLength_le_recordLength (cfg : Config) (op : Opcode) (rec : List Byte) :
    minLength cfg op ≤ recordLength cfg op rec :=
  Nat.le_add_right _ _

/-- A value that fits a field of whole bytes comes back from its bytes. -/
theorem fromBE_beBytes_of_fits {w v : Nat} (hw : w % 8 = 0) (hv : v < 2 ^ w) : fromBE (beBytes (w / 8) v) = v := by
  have h : (256 : Nat) ^ (w / 8) = 2 ^ w := by
    rw [show (256 : Nat) = 2 ^ 8 from rfl, ← Nat.pow_mul]
    congr 1
    omega
  rw [fromBE_beBytes, h, Nat.mod_eq_of_lt hv]

/-- Everything `decodeAt` can answer, with the check of R254 that decides it. -/
theorem decodeAt_cases (cfg : Config) (rec : List Byte) :
    (rec = [] ∧ decodeAt cfg rec = .error .emptyRecord) ∨
    (∃ b body, rec = b :: body ∧ opcodeOf b = none ∧ decodeAt cfg rec = .error .illegalOpcode) ∨
    (∃ op body, rec = op.byte :: body ∧ rec.length < minLength cfg op ∧ decodeAt cfg rec = .error .tooShort) ∨
    (∃ op body, rec = op.byte :: body ∧ minLength cfg op ≤ rec.length ∧ rec.length ≠ recordLength cfg op rec ∧
      decodeAt cfg rec = .error .wrongLength) ∨
    (∃ op body, rec = op.byte :: body ∧ rec.length = recordLength cfg op rec ∧
      decodeAt cfg rec = .ok (operandsOf cfg op rec)) := by
  cases rec with
  | nil => exact .inl ⟨rfl, rfl⟩
  | cons b body =>
    right
    rcases opcodeOf_cases b with h | ⟨op, h, rfl⟩
    · exact .inl ⟨b, body, rfl, h, by simp [decodeAt, h]⟩
    · right
      by_cases h1 : (op.byte :: body).length < minLength cfg op
      · exact .inl ⟨op, body, rfl, h1, by simp only [decodeAt, h, if_pos h1]⟩
      · right
        by_cases h2 : (op.byte :: body).length ≠ recordLength cfg op (op.byte :: body)
        · exact .inl ⟨op, body, rfl, Nat.le_of_not_lt h1, h2, by simp only [decodeAt, h, if_neg h1, if_pos h2]⟩
        · exact .inr ⟨op, body, rfl, not_not.mp h2, by simp only [decodeAt, h, if_neg h1, if_neg h2]⟩

/-- Everything `decode` can answer: `decodeAt` at the hardware's parameters. -/
theorem decode_cases (rec : List Byte) :
    (rec = [] ∧ decode rec = .error .emptyRecord) ∨
    (∃ b body, rec = b :: body ∧ opcodeOf b = none ∧ decode rec = .error .illegalOpcode) ∨
    (∃ op body, rec = op.byte :: body ∧ rec.length < minLength Config.hardware op ∧
      decode rec = .error .tooShort) ∨
    (∃ op body, rec = op.byte :: body ∧ minLength Config.hardware op ≤ rec.length ∧
      rec.length ≠ recordLength Config.hardware op rec ∧ decode rec = .error .wrongLength) ∨
    (∃ op body, rec = op.byte :: body ∧ rec.length = recordLength Config.hardware op rec ∧
      decode rec = .ok (operandsOf Config.hardware op rec)) :=
  decodeAt_cases Config.hardware rec

end Sys2Proof
end

