-- ==== Sys2Proof/Laws/State.lean ====
section
/-! SUPPORT. One lemma per field per update of the state, so that no later proof unfolds a record update. -/

namespace Sys2Proof.Machine

open Sys2Proof

section Respond
variable (s : State) (st : Status) (fields : List Byte)
@[simp] theorem State.respond_rxBuf : (s.respond st fields).rxBuf = s.rxBuf := rfl
@[simp] theorem State.respond_rxLastMs : (s.respond st fields).rxLastMs = s.rxLastMs := rfl
@[simp] theorem State.respond_secret : (s.respond st fields).secret = s.secret := rfl
@[simp] theorem State.respond_pending : (s.respond st fields).pending = s.pending := rfl
@[simp] theorem State.respond_responses :
    (s.respond st fields).responses = s.responses ++ [st.code :: fields] := rfl
end Respond

section Raise
variable (s : State) (st : Status)
@[simp] theorem State.raise_rxBuf : (s.raise st).rxBuf = s.rxBuf := rfl
@[simp] theorem State.raise_rxLastMs : (s.raise st).rxLastMs = s.rxLastMs := rfl
@[simp] theorem State.raise_secret : (s.raise st).secret = s.secret := rfl
@[simp] theorem State.raise_pending : (s.raise st).pending = s.pending := rfl
@[simp] theorem State.raise_responses : (s.raise st).responses = s.responses ++ [[st.code]] := rfl
end Raise

section Emit
variable (s : State) (ev : Event)
@[simp] theorem State.emit_rxBuf : (s.emit ev).rxBuf = s.rxBuf := rfl
@[simp] theorem State.emit_rxLastMs : (s.emit ev).rxLastMs = s.rxLastMs := rfl
@[simp] theorem State.emit_secret : (s.emit ev).secret = s.secret := rfl
@[simp] theorem State.emit_pending : (s.emit ev).pending = s.pending := rfl
@[simp] theorem State.emit_responses : (s.emit ev).responses = s.responses ++ [0x00 :: ev.bytes] := rfl
end Emit

section SetRxBuf
variable (s : State) (buf : List Byte)
@[simp] theorem State.setRxBuf_rxBuf : (s.setRxBuf buf).rxBuf = buf := rfl
@[simp] theorem State.setRxBuf_rxLastMs : (s.setRxBuf buf).rxLastMs = s.rxLastMs := rfl
@[simp] theorem State.setRxBuf_secret : (s.setRxBuf buf).secret = s.secret := rfl
@[simp] theorem State.setRxBuf_pending : (s.setRxBuf buf).pending = s.pending := rfl
@[simp] theorem State.setRxBuf_responses : (s.setRxBuf buf).responses = s.responses := rfl
end SetRxBuf

section SetRxLastMs
variable (s : State) (now : Millis)
@[simp] theorem State.setRxLastMs_rxBuf : (s.setRxLastMs now).rxBuf = s.rxBuf := rfl
@[simp] theorem State.setRxLastMs_rxLastMs : (s.setRxLastMs now).rxLastMs = now := rfl
@[simp] theorem State.setRxLastMs_secret : (s.setRxLastMs now).secret = s.secret := rfl
@[simp] theorem State.setRxLastMs_pending : (s.setRxLastMs now).pending = s.pending := rfl
@[simp] theorem State.setRxLastMs_responses : (s.setRxLastMs now).responses = s.responses := rfl
end SetRxLastMs

section SetSecret
variable (s : State) (key : List Byte)
@[simp] theorem State.setSecret_rxBuf : (s.setSecret key).rxBuf = s.rxBuf := rfl
@[simp] theorem State.setSecret_rxLastMs : (s.setSecret key).rxLastMs = s.rxLastMs := rfl
@[simp] theorem State.setSecret_secret : (s.setSecret key).secret = key := rfl
@[simp] theorem State.setSecret_pending : (s.setSecret key).pending = s.pending := rfl
@[simp] theorem State.setSecret_responses : (s.setSecret key).responses = s.responses := rfl
end SetSecret

section RejectRecord
variable (s : State) (why : Reject)
@[simp] theorem State.rejectRecord_rxBuf : (s.rejectRecord why).rxBuf = s.rxBuf := rfl
@[simp] theorem State.rejectRecord_rxLastMs : (s.rejectRecord why).rxLastMs = s.rxLastMs := rfl
@[simp] theorem State.rejectRecord_secret : (s.rejectRecord why).secret = s.secret := rfl
@[simp] theorem State.rejectRecord_pending : (s.rejectRecord why).pending = s.pending := rfl
@[simp] theorem State.rejectRecord_responses :
    (s.rejectRecord why).responses = s.responses ++ [[(rejectStatus why).code]] := rfl
end RejectRecord

section AssertReset
variable (s : State)
@[simp] theorem State.assertReset_rxBuf : s.assertReset.rxBuf = [] := rfl
@[simp] theorem State.assertReset_rxLastMs : s.assertReset.rxLastMs = 0 := rfl
@[simp] theorem State.assertReset_secret : s.assertReset.secret = [] := rfl
@[simp] theorem State.assertReset_pending : s.assertReset.pending = s.pending := rfl
@[simp] theorem State.assertReset_responses : s.assertReset.responses = s.responses := rfl
end AssertReset

section OfferRecord
variable (s : State) (rec : List Byte)
@[simp] theorem State.offerRecord_rxBuf : (s.offerRecord rec).rxBuf = s.rxBuf := rfl
@[simp] theorem State.offerRecord_rxLastMs : (s.offerRecord rec).rxLastMs = s.rxLastMs := rfl
@[simp] theorem State.offerRecord_secret : (s.offerRecord rec).secret = s.secret := rfl
@[simp] theorem State.offerRecord_pending : (s.offerRecord rec).pending = .record rec :: s.pending := rfl
@[simp] theorem State.offerRecord_responses : (s.offerRecord rec).responses = s.responses := rfl
end OfferRecord

section Issue
variable (s : State) (recs : List (List Byte))
@[simp] theorem State.issue_rxBuf : (s.issue recs).rxBuf = s.rxBuf := rfl
@[simp] theorem State.issue_rxLastMs : (s.issue recs).rxLastMs = s.rxLastMs := rfl
@[simp] theorem State.issue_secret : (s.issue recs).secret = s.secret := rfl
@[simp] theorem State.issue_pending : (s.issue recs).pending = s.pending ++ recs.map .record := rfl
@[simp] theorem State.issue_responses : (s.issue recs).responses = s.responses := rfl
end Issue

/-- Two states with equal fields are equal. -/
theorem State.ext_fields {s t : State} (h1 : s.rxBuf = t.rxBuf) (h2 : s.rxLastMs = t.rxLastMs)
    (h3 : s.secret = t.secret) (h4 : s.pending = t.pending) (h5 : s.responses = t.responses) : s = t := by
  cases s; cases t; simp_all

end Sys2Proof.Machine
end

