-- ==== Sys2Proof/Laws/Ops.lean ====
section
/-! SUPPORT. What each shared operation can do, once: the port, the judgement, the meanings under given parameters,
one step. Later proofs cite these instead of unfolding. -/

namespace Sys2Proof.Machine

open Sys2Proof

/-- The port hands out the oldest input and keeps the rest. -/
theorem takeInput_of_pending {s : State} {input : PortInput} {rest : List PortInput}
    (h : s.pending = input :: rest) : s.takeInput = some (input, { s with pending := rest }) := by
  simp [State.takeInput, h]

theorem takeInput_of_idle {s : State} (h : s.pending = []) : s.takeInput = none := by
  simp [State.takeInput, h]

/-- If the port hands out an input, it was the oldest one and only `pending` changed. -/
theorem takeInput_cases {s s' : State} {input : PortInput} (h : s.takeInput = some (input, s')) :
    s.pending = input :: s'.pending ∧ s' = { s with pending := s'.pending } := by
  unfold State.takeInput at h
  split at h <;> simp_all
  obtain ⟨rfl, rfl⟩ := h
  simp

/-- Every outcome of the judgement, with the condition it is given under. -/
theorem judge_cases (p : Nat) (b : Byte) (buf : List Byte) :
    (p = 0 ∧ b = 0x55 ∧ judge p b buf = .keep) ∨ (p = 0 ∧ b ≠ 0x55 ∧ judge p b buf = .badHeader) ∨
    (p = 1 ∧ b = 0xAA ∧ judge p b buf = .keep) ∨ (p = 1 ∧ b ≠ 0xAA ∧ judge p b buf = .badHeader) ∨
    (2 ≤ p ∧ p ≤ 5 ∧ judge p b buf = .keep) ∨
    (6 ≤ p ∧ p < 6 + declaredLen buf ∧ judge p b buf = .keep) ∨
    (6 ≤ p ∧ 6 + declaredLen buf ≤ p ∧ b = sum8 (buf.take (6 + declaredLen buf)) ∧
      judge p b buf = .completeOk (declaredLen buf)) ∨
    (6 ≤ p ∧ 6 + declaredLen buf ≤ p ∧ b ≠ sum8 (buf.take (6 + declaredLen buf)) ∧
      judge p b buf = .completeBad (declaredLen buf) (sum8 (buf.take (6 + declaredLen buf)))) := by
  unfold judge
  by_cases h0 : p = 0
  · by_cases hb : b = 0x55
    · exact .inl ⟨h0, hb, by rw [if_pos h0, if_pos hb]⟩
    · exact .inr (.inl ⟨h0, hb, by rw [if_pos h0, if_neg hb]⟩)
  · rw [if_neg h0]
    by_cases h1 : p = 1
    · by_cases hb : b = 0xAA
      · exact .inr (.inr (.inl ⟨h1, hb, by rw [if_pos h1, if_pos hb]⟩))
      · exact .inr (.inr (.inr (.inl ⟨h1, hb, by rw [if_pos h1, if_neg hb]⟩)))
    · rw [if_neg h1]
      refine .inr (.inr (.inr (.inr ?_)))
      by_cases h5 : p ≤ 5
      · exact .inl ⟨by omega, h5, by rw [if_pos h5]⟩
      · rw [if_neg h5]
        by_cases hl : p < 6 + declaredLen buf
        · exact .inr (.inl ⟨by omega, hl, if_pos hl⟩)
        · by_cases hb : b = sum8 (buf.take (6 + declaredLen buf))
          · exact .inr (.inr (.inl ⟨by omega, by omega, hb, by simp only [if_neg hl, if_pos hb]⟩))
          · exact .inr (.inr (.inr ⟨by omega, by omega, hb, by simp only [if_neg hl, if_neg hb]⟩))

/-- The four ways FEED ends (R201). -/
theorem execFeed_cases (b : Byte) (now : Millis) (s : State) :
    (judge s.rxBuf.length b (s.rxBuf ++ [b]) = .keep ∧
      execFeed b now s = .next (((s.setRxBuf (s.rxBuf ++ [b])).setRxLastMs now).emit .none)) ∨
    (judge s.rxBuf.length b (s.rxBuf ++ [b]) = .badHeader ∧
      execFeed b now s = .next ((s.setRxBuf []).emit (.hdrDiscard s.rxBuf.length b))) ∨
    (∃ len, judge s.rxBuf.length b (s.rxBuf ++ [b]) = .completeOk len ∧
      execFeed b now s = .next ((s.setRxBuf []).emit (.frameOk (byteAt (s.rxBuf ++ [b]) 2)
        (byteAt (s.rxBuf ++ [b]) 3) (slice (s.rxBuf ++ [b]) 6 len)))) ∨
    (∃ len c, judge s.rxBuf.length b (s.rxBuf ++ [b]) = .completeBad len c ∧
      execFeed b now s = .next ((s.setRxBuf []).emit (.csumErr b c))) := by
  cases h : judge s.rxBuf.length b (s.rxBuf ++ [b]) <;> simp [execFeed, h]

/-- The two ways TICK ends (R209). -/
theorem tickAt_cases (cfg : Config) (now : Millis) (s : State) :
    (elapsedMs cfg now s.rxLastMs > cfg.rxTimeoutMs.toNat ∧ s.rxBuf ≠ [] ∧
      tickAt cfg now s = .next ((s.setRxBuf []).emit (.rxTimeout s.rxBuf.length))) ∨
    ((elapsedMs cfg now s.rxLastMs ≤ cfg.rxTimeoutMs.toNat ∨ s.rxBuf = []) ∧
      tickAt cfg now s = .next (s.emit .none)) := by
  by_cases h : elapsedMs cfg now s.rxLastMs > cfg.rxTimeoutMs.toNat ∧ s.rxBuf.length > 0
  · exact .inl ⟨h.1, by simpa [List.length_pos_iff] using h.2, by simp only [tickAt, if_pos h]⟩
  · refine .inr ⟨?_, by simp only [tickAt, if_neg h]⟩
    by_cases he : s.rxBuf = []
    · exact .inr he
    · exact .inl (Nat.not_lt.mp fun hlt => h ⟨hlt, List.length_pos_iff.mpr he⟩)

/-- Everything an operation other than FEED and TICK can do: one response, and at most a new secret (R58). -/
theorem execAt_cases (cfg : Config) (i : Instr) (s : State)
    (hf : ∀ b now, i ≠ .feed b now) (ht : ∀ now, i ≠ .tick now) :
    (∃ st fields, execAt cfg i s = .next (s.respond st fields)) ∨
    (∃ text key st fields, i = .ldsec text ∧ execAt cfg i s = .next ((s.setSecret key).respond st fields)) := by
  cases i with
  | feed b now => exact absurd rfl (hf b now)
  | tick now => exact absurd rfl (ht now)
  | b32enc data =>
    left
    simp only [execAt, b32encAt]
    split <;> exact ⟨_, _, rfl⟩
  | b32dec text =>
    left
    simp only [execAt, b32decAt]
    split
    · exact ⟨_, _, rfl⟩
    · split <;> exact ⟨_, _, rfl⟩
  | ldsec text =>
    by_cases h : text.length > cfg.b32TextMax
    · exact .inl ⟨_, _, by simp only [execAt, ldsecAt, if_pos h]; rfl⟩
    · right
      cases hd : b32decode text with
      | none => exact ⟨text, [], .errB32Symbol, [0x00, 0x00], rfl, by simp only [execAt, ldsecAt, if_neg h, hd]⟩
      | some out => exact ⟨text, out, .ok, [if out.length > 0 then 0x01 else 0x00, BitVec.ofNat 8 out.length], rfl,
          by simp only [execAt, ldsecAt, if_neg h, hd]⟩
  | hotp d c =>
    left
    simp only [execAt, hotpAt]
    split
    · exact ⟨_, _, rfl⟩
    · split <;> exact ⟨_, _, rfl⟩
  | totp d w t =>
    left
    simp only [execAt, totpAt]
    split
    · exact ⟨_, _, rfl⟩
    · split <;> exact ⟨_, _, rfl⟩
  | verify d f w t c =>
    left
    simp only [execAt, verifyAt]
    split
    · exact ⟨_, _, rfl⟩
    · split <;> exact ⟨_, _, rfl⟩
  | frame v c p => exact .inl ⟨_, _, rfl⟩
  | status => exact .inl ⟨_, _, rfl⟩

/-- The elapsed time at an operand width the parameters may have: the difference modulo 2^NOW_WIDTH (R210). -/
theorem elapsedMs_eq {cfg : Config} (h : cfg.nowWidth ≤ 32) (now last : Millis) :
    elapsedMs cfg now last = (now.toNat + 2 ^ 32 - last.toNat) % 2 ^ cfg.nowWidth := by
  unfold elapsedMs
  rw [BitVec.toNat_sub, Nat.mod_mod_of_dvd _ (Nat.pow_dvd_pow 2 h)]
  congr 1
  have := last.isLt
  omega

/-- `exec` is the machine of the hardware's parameters. -/
theorem exec_eq_execAt (i : Instr) (s : State) : exec i s = execAt Config.hardware i s := by
  cases i <;> rfl

/-- What a port input does, by what stands at the port. -/
theorem performInput_of_record {s : State} {rec : List Byte} {rest : List PortInput}
    (h : s.pending = .record rec :: rest) (f : List Byte → State → Host.Outcome State Fault Refusal) :
    performInput f s = f rec { s with pending := rest } := by
  simp [performInput, takeInput_of_pending h]

theorem performInput_of_reset {s : State} {dropped : Option (List Byte)} {rest : List PortInput}
    (h : s.pending = .reset dropped :: rest) (f : List Byte → State → Host.Outcome State Fault Refusal) :
    performInput f s = .next ({ s with pending := rest } : State).assertReset := by
  simp [performInput, takeInput_of_pending h]

theorem performInput_of_idle {s : State} (h : s.pending = [])
    (f : List Byte → State → Host.Outcome State Fault Refusal) : performInput f s = .next s := by
  simp [performInput, takeInput_of_idle h]

theorem step_of_record {s : State} {rec : List Byte} {rest : List PortInput}
    (h : s.pending = .record rec :: rest) : step s = perform rec { s with pending := rest } :=
  performInput_of_record h perform

theorem step_of_reset {s : State} {dropped : Option (List Byte)} {rest : List PortInput}
    (h : s.pending = .reset dropped :: rest) :
    step s = .next ({ s with pending := rest } : State).assertReset :=
  performInput_of_reset h perform

/-- What a record does, by what it decodes to. -/
theorem performWith_of_ok {cfg : Config} {rec : List Byte} {i : Instr} (h : decodeAt cfg rec = .ok i)
    (run : Instr → State → Host.Outcome State Fault Refusal) (s : State) : performWith cfg run rec s = run i s := by
  simp [performWith, h]

theorem performWith_of_error {cfg : Config} {rec : List Byte} {why : Reject} (h : decodeAt cfg rec = .error why)
    (run : Instr → State → Host.Outcome State Fault Refusal) (s : State) :
    performWith cfg run rec s = .next (s.rejectRecord why) := by
  simp [performWith, h]

theorem perform_of_ok {rec : List Byte} {i : Instr} (h : decode rec = .ok i) (s : State) :
    perform rec s = exec i s :=
  performWith_of_ok h exec s

theorem perform_of_error {rec : List Byte} {why : Reject} (h : decode rec = .error why) (s : State) :
    perform rec s = .next (s.rejectRecord why) :=
  performWith_of_error h exec s

end Sys2Proof.Machine
end

