-- ==== Sys2Proof/Laws/Otp.lean ====
section
/-! SUPPORT. The small lemmas of the OTP engine: lengths, operand checks, the order of the checks. -/

namespace Sys2Proof.Machine

open Sys2Proof

/-- A digest is 20 bytes (R155). -/
@[simp] theorem sha1_length (m : List Byte) : (sha1 m).length = 20 := by simp [sha1, sha1Digest]

/-- The reserved bits of the VERIFY flags are clear exactly below 2. -/
theorem flagsReservedSet_iff (flags : Byte) : flagsReservedSet flags = true ↔ 2 ≤ flags.toNat := by
  have h : ∀ f : Byte, flagsReservedSet f = true ↔ 2 ≤ f.toNat := by decide
  exact h flags

/-- `TIME_VALID` is bit 0. -/
theorem flagTimeValid_iff (flags : Byte) : flagTimeValid flags = true ↔ flags.toNat % 2 = 1 := by
  have h : ∀ f : Byte, flagTimeValid f = true ↔ f.toNat % 2 = 1 := by decide
  exact h flags

/-- Which digit counts the parameters forbid. -/
theorem digitsIllegal_iff (cfg : Config) (d : Byte) :
    digitsIllegal cfg d = true ↔ d.toNat < cfg.digitsMin ∨ cfg.digitsMax < d.toNat := by
  simp [digitsIllegal]

/-- The three ways HOTP ends, in the order of its checks (R170, R254). -/
theorem hotpAt_cases (cfg : Config) (d : Byte) (counter : Word64) (s : State) :
    (digitsIllegal cfg d = true ∧ hotpAt cfg d counter s = .next (s.raise .errParam)) ∨
    (digitsIllegal cfg d = false ∧ s.secret = [] ∧ hotpAt cfg d counter s = .next (s.raise .errNoSecret)) ∨
    (digitsIllegal cfg d = false ∧ s.secret ≠ [] ∧
      hotpAt cfg d counter s = .next (s.respond .ok (beBytes 4 (hotp s.secret counter.toNat d.toNat)))) := by
  cases hd : digitsIllegal cfg d with
  | true => exact .inl ⟨rfl, by simp [hotpAt, hd]⟩
  | false =>
    by_cases hs : s.secret = []
    · exact .inr (.inl ⟨rfl, hs, by simp [hotpAt, hd, hs]⟩)
    · exact .inr (.inr ⟨rfl, hs, by simp [hotpAt, hd, hs]⟩)

/-- The three ways TOTP ends, in the order of its checks (R172, R254). -/
theorem totpAt_cases (cfg : Config) (d : Byte) (window : Word32) (time : Word64) (s : State) :
    ((digitsIllegal cfg d = true ∨ window = 0) ∧ totpAt cfg d window time s = .next (s.raise .errParam)) ∨
    (digitsIllegal cfg d = false ∧ window ≠ 0 ∧ s.secret = [] ∧
      totpAt cfg d window time s = .next (s.raise .errNoSecret)) ∨
    (digitsIllegal cfg d = false ∧ window ≠ 0 ∧ s.secret ≠ [] ∧ totpAt cfg d window time s =
      .next (s.respond .ok (beBytes 4 (totp s.secret time.toNat window.toNat d.toNat)))) := by
  cases hd : digitsIllegal cfg d with
  | true => exact .inl ⟨.inl rfl, by simp [totpAt, hd]⟩
  | false =>
    by_cases hw : window = 0
    · exact .inl ⟨.inr hw, by simp [totpAt, hw]⟩
    · by_cases hs : s.secret = []
      · exact .inr (.inl ⟨rfl, hw, hs, by simp [totpAt, hd, hs]; exact fun h => absurd h hw⟩)
      · exact .inr (.inr ⟨rfl, hw, hs, by simp [totpAt, hd, hs]; exact fun h => absurd h hw⟩)

/-- The three ways VERIFY ends, in the order of its checks (R175, R254). -/
theorem verifyAt_cases (cfg : Config) (d flags : Byte) (window : Word32) (time : Word64) (code : List Byte)
    (s : State) :
    ((2 ≤ flags.toNat ∨ digitsIllegal cfg d = true ∨ window = 0) ∧
      verifyAt cfg d flags window time code s = .next (s.raise .errParam)) ∨
    (flags.toNat < 2 ∧ digitsIllegal cfg d = false ∧ window ≠ 0 ∧ (flags.toNat = 0 ∨ s.secret = []) ∧
      verifyAt cfg d flags window time code s = .next (s.raise .noAnswer)) ∨
    (flags.toNat = 1 ∧ digitsIllegal cfg d = false ∧ window ≠ 0 ∧ s.secret ≠ [] ∧
      verifyAt cfg d flags window time code s = .next (s.respond .ok [verdictByte (decide (code.length = d.toNat ∧
        code = decText (totp s.secret time.toNat window.toNat d.toNat) d.toNat))])) := by
  by_cases h1 : (flagsReservedSet flags || digitsIllegal cfg d || decide (window = 0)) = true
  · refine .inl ⟨?_, by simp only [verifyAt, if_pos h1]⟩
    simpa [flagsReservedSet_iff, or_assoc] using h1
  · have h1' : flags.toNat < 2 ∧ digitsIllegal cfg d = false ∧ window ≠ 0 := by
      simp only [Bool.or_eq_true, flagsReservedSet_iff, decide_eq_true_eq, not_or, Bool.not_eq_true] at h1
      exact ⟨by omega, h1.1.2, h1.2⟩
    obtain ⟨hf, hd, hw⟩ := h1'
    by_cases h2 : (!flagTimeValid flags || decide (s.secret.length = 0)) = true
    · refine .inr (.inl ⟨hf, hd, hw, ?_, by simp only [verifyAt, if_neg h1, if_pos h2]⟩)
      simp only [Bool.or_eq_true, Bool.not_eq_true', ← Bool.not_eq_true, flagTimeValid_iff, decide_eq_true_eq,
        List.length_eq_zero_iff] at h2
      exact h2.imp_left (fun h => by omega)
    · refine .inr (.inr ⟨?_, hd, hw, ?_, by simp only [verifyAt, if_neg h1, if_neg h2]⟩) <;>
        simp only [Bool.or_eq_true, Bool.not_eq_true', ← Bool.not_eq_true, flagTimeValid_iff, decide_eq_true_eq,
          List.length_eq_zero_iff, not_or, not_not] at h2
      · omega
      · exact h2.2

end Sys2Proof.Machine
end

