-- ==== Sys2Proof/Laws/PerInstr.lean ====
section
/-! SUPPORT. Per-instruction lemmas: the shape of each command record (spec/30_encoding.md R80). -/

namespace Sys2Proof.Laws

open Sys2Proof Sys2Proof.Machine

/-- A record begins with its opcode, and is as long as the layout and the variable part give. -/
def EncodeShape.Statement (i : Instr) : Prop :=
  (encode i).head? = some (opcodeOfInstr i).byte ∧
    (encode i).length = minLength Config.hardware (opcodeOfInstr i) + variablePart i

/-- The same at any parameters, which the lemma of each constructor below reads at the hardware's. -/
theorem encodeAt_shape (cfg : Config) (i : Instr) :
    (encodeAt cfg i).head? = some (opcodeOfInstr i).byte ∧
      (encodeAt cfg i).length = minLength cfg (opcodeOfInstr i) + variablePart i := by
  cases i <;> refine ⟨rfl, ?_⟩ <;> simp [encodeAt, minLength, opcodeOfInstr, variablePart] <;> omega

theorem EncodeShape.b32enc (data : List Byte) : EncodeShape.Statement (.b32enc data) :=
  encodeAt_shape _ _

theorem EncodeShape.b32dec (text : List Byte) : EncodeShape.Statement (.b32dec text) :=
  encodeAt_shape _ _

theorem EncodeShape.ldsec (text : List Byte) : EncodeShape.Statement (.ldsec text) :=
  encodeAt_shape _ _

theorem EncodeShape.hotp (d : Byte) (counter : Word64) : EncodeShape.Statement (.hotp d counter) :=
  encodeAt_shape _ _

theorem EncodeShape.totp (d : Byte) (window : Word32) (time : Word64) :
    EncodeShape.Statement (.totp d window time) :=
  encodeAt_shape _ _

theorem EncodeShape.verify (d flags : Byte) (window : Word32) (time : Word64) (code : List Byte) :
    EncodeShape.Statement (.verify d flags window time code) :=
  encodeAt_shape _ _

theorem EncodeShape.feed (byte : Byte) (now : Millis) : EncodeShape.Statement (.feed byte now) :=
  encodeAt_shape _ _

theorem EncodeShape.tick (now : Millis) : EncodeShape.Statement (.tick now) :=
  encodeAt_shape _ _

theorem EncodeShape.frame (version cmd : Byte) (payload : List Byte) :
    EncodeShape.Statement (.frame version cmd payload) :=
  encodeAt_shape _ _

theorem EncodeShape.status : EncodeShape.Statement .status := encodeAt_shape _ _

end Sys2Proof.Laws
end

