-- ==== Sys2Proof/Laws/Runs.lean ====
section
/-! SUPPORT. Sequences of operations: every operation completes with one response, and sequences compose. -/

namespace Sys2Proof.Machine

open Sys2Proof

/-- Every operation completes at every parameter choice, with one response and the port as it was. -/
theorem execAt_completes (cfg : Config) (i : Instr) (s : State) :
    ∃ (t : State) (resp : List Byte), execAt cfg i s = .next t ∧ t.pending = s.pending ∧
      t.responses = s.responses ++ [resp] := by
  by_cases hf : ∃ b now, i = .feed b now
  · obtain ⟨b, now, rfl⟩ := hf
    rcases execFeed_cases b now s with ⟨_, h⟩ | ⟨_, h⟩ | ⟨_, _, h⟩ | ⟨_, _, _, h⟩ <;> exact ⟨_, _, h, rfl, rfl⟩
  · by_cases ht : ∃ now, i = .tick now
    · obtain ⟨now, rfl⟩ := ht
      rcases tickAt_cases cfg now s with ⟨_, _, h⟩ | ⟨_, h⟩ <;> exact ⟨_, _, h, rfl, rfl⟩
    · rcases execAt_cases cfg i s (fun b now h => hf ⟨b, now, h⟩) (fun now h => ht ⟨now, h⟩) with
        ⟨_, _, h⟩ | ⟨_, _, _, _, _, h⟩ <;> exact ⟨_, _, h, rfl, rfl⟩

@[simp] theorem execAll_nil (s : State) : execAll [] s = .next s := rfl

theorem execAll_cons_of_next {i : Instr} {s t : State} (h : exec i s = .next t) (is : List Instr) :
    execAll (i :: is) s = execAll is t := by
  simp [execAll, h]

/-- A sequence is its first part, then the rest from where that ended. -/
theorem execAll_append {as : List Instr} {s t : State} (h : execAll as s = .next t) (bs : List Instr) :
    execAll (as ++ bs) s = execAll bs t := by
  induction as generalizing s with
  | nil => simp only [execAll_nil, Host.Outcome.next.injEq] at h; simp [h]
  | cons i as ih =>
    cases hi : exec i s with
    | next u =>
      rw [execAll_cons_of_next hi] at h
      rw [List.cons_append, execAll_cons_of_next hi, ih h]
    | fault r => cases r
    | refused r => simp [execAll, hi] at h

end Sys2Proof.Machine
end

