-- ==== Sys2Proof/Tests/Slice0.lean ====
section
/-! SUPPORT. Small tests, their expected values from spec/ (mostly spec/95_test_vectors.md), and for every statement
with hypotheses a concrete state and operands that meet them. -/

namespace Sys2Proof.Tests

open Sys2Proof Sys2Proof.Machine Sys2Proof.Claims

/-- Parameters other than the defaults: narrower operands, a greater secret. -/
def small : Config := { Config.hardware with
  b32TextMax := 408, secretMax := 255, nowWidth := 16, timeWidth := 32, windowWidth := 8 }

/-! ## Well-formedness: one ill-formed term for each check -/

/-- A variable part of n bytes is refused from the bound on; each test below is this at its first length. -/
theorem long_parts_ill_formed (n : Nat) :
    (65536 ≤ n → (Instr.b32enc (List.replicate n 0)).WellFormed = false) ∧
    (65536 ≤ n → (Instr.b32dec (List.replicate n 0)).WellFormed = false) ∧
    (65536 ≤ n → (Instr.ldsec (List.replicate n 0)).WellFormed = false) ∧
    (256 ≤ n → (Instr.verify 6 1 300 0 (List.replicate n 0)).WellFormed = false) ∧
    (65536 ≤ n → (Instr.frame 0 0 (List.replicate n 0)).WellFormed = false) := by
  simp [Instr.WellFormed]

theorem test_wf_refuses_long_b32enc : (Instr.b32enc (List.replicate 65536 0)).WellFormed = false :=
  (long_parts_ill_formed 65536).1 (Nat.le_refl _)
theorem test_wf_refuses_long_b32dec : (Instr.b32dec (List.replicate 65536 0)).WellFormed = false :=
  (long_parts_ill_formed 65536).2.1 (Nat.le_refl _)
theorem test_wf_refuses_long_ldsec : (Instr.ldsec (List.replicate 65536 0)).WellFormed = false :=
  (long_parts_ill_formed 65536).2.2.1 (Nat.le_refl _)
theorem test_wf_refuses_long_verify : (Instr.verify 6 1 300 0 (List.replicate 256 0)).WellFormed = false :=
  (long_parts_ill_formed 256).2.2.2.1 (Nat.le_refl _)
theorem test_wf_refuses_long_frame : (Instr.frame 0 0 (List.replicate 65536 0)).WellFormed = false :=
  (long_parts_ill_formed 65536).2.2.2.2 (Nat.le_refl _)

theorem test_operands_too_wide_refused : (Instr.feed 0 0x10000).operandsFit small = false ∧
    (Instr.tick 0x10000).operandsFit small = false ∧ (Instr.totp 6 0x100 0).operandsFit small = false ∧
    (Instr.totp 6 1 0x100000000).operandsFit small = false ∧ (Instr.verify 6 1 0x100 0 []).operandsFit small = false ∧
    (Instr.verify 6 1 1 0x100000000 []).operandsFit small = false := by decide

/-! ## Decoding: for every constructor a record written out byte by byte from R80 (bytes as 95_test_vectors.md
sections 3 and 4 write them) -/

theorem test_decode_b32enc : decode [0x01, 0x00, 0x03, 0x66, 0x6F, 0x6F] = .ok (.b32enc [0x66, 0x6F, 0x6F]) := by decide
theorem test_decode_b32dec : decode [0x02, 0x00, 0x05, 0x4D, 0x5A, 0x58, 0x57, 0x30] =
    .ok (.b32dec [0x4D, 0x5A, 0x58, 0x57, 0x30]) := by decide
theorem test_decode_ldsec : decode [0x03, 0x00, 0x04, 0x47, 0x45, 0x5A, 0x31] =
    .ok (.ldsec [0x47, 0x45, 0x5A, 0x31]) := by decide
theorem test_decode_hotp : decode [0x04, 0x06, 0x00, 0x00, 0x00, 0x00, 0x00, 0x00, 0x00, 0x09] = .ok (.hotp 6 9) := by decide
theorem test_decode_totp : decode [0x05, 0x08, 0x00, 0x00, 0x00, 0x1E, 0x00, 0x00, 0x00, 0x04, 0xA8, 0x17, 0xC8, 0x00] =
    .ok (.totp 8 30 20000000000) := by decide
theorem test_decode_verify : decode [0x06, 0x06, 0x01, 0x00, 0x00, 0x01, 0x2C, 0x00, 0x00, 0x00, 0x00, 0x65, 0x53,
    0xF1, 0x00, 0x06, 0x32, 0x31, 0x35, 0x35, 0x30, 0x32] =
    .ok (.verify 6 1 300 1700000000 [0x32, 0x31, 0x35, 0x35, 0x30, 0x32]) := by decide
theorem test_decode_feed : decode [0x10, 0x55, 0x00, 0x00, 0x03, 0xE8] = .ok (.feed 0x55 1000) := by decide
theorem test_decode_tick : decode [0x11, 0x00, 0x00, 0x05, 0x79] = .ok (.tick 1401) := by decide
theorem test_decode_frame : decode [0x12, 0x00, 0x01, 0x00, 0x02, 0xAA, 0xBB] = .ok (.frame 0 1 [0xAA, 0xBB]) := by decide
theorem test_decode_status : decode [0x20] = .ok .status := by decide
/-- 95_test_vectors.md section 4.5. -/
theorem test_decode_rejects_by_name : decode [] = .error .emptyRecord ∧ decode [0x07, 0x01, 0x02] = .error .illegalOpcode ∧
    decode [0x04, 0x06, 0x00] = .error .tooShort ∧ decode [0x20, 0x00] = .error .wrongLength := by decide
theorem test_encode_frame : encode (.frame 0 1 [0xAA, 0xBB]) = [0x12, 0x00, 0x01, 0x00, 0x02, 0xAA, 0xBB] := by decide
theorem test_table_word_hotp : decodeTableWord 8 0x04 = some (.hotp 0 0) := by decide
theorem test_table_word_illegal : decodeTableWord 8 0x07 = none := by decide

/-! ## One step each -/

/-- The state with one record at the port. -/
def port (s : State) (rec : List Byte) : State := s.offerRecord rec

/-- The state after one step, the reset state if there is none. -/
def after (s : State) : State :=
  match step s with
  | .next t => t
  | .fault _ => State.reset
  | .refused _ => State.reset

/-- The last response after one step on a record. -/
def answer (s : State) (rec : List Byte) : List Byte := ((after (port s rec)).responses.getLast?).getD []

/-- A secret of 20 bytes, `K20` of 95_test_vectors.md. -/
def k20 : List Byte := [0x31, 0x32, 0x33, 0x34, 0x35, 0x36, 0x37, 0x38, 0x39, 0x30,
  0x31, 0x32, 0x33, 0x34, 0x35, 0x36, 0x37, 0x38, 0x39, 0x30]

/-- The reset state with `K20` loaded. -/
def keyed20 : State := State.reset.setSecret k20

/-- The reset state with a receive buffer and a clock sample. -/
def rx (buf : List Byte) (last : Millis) : State := (State.reset.setRxBuf buf).setRxLastMs last

/-- 95 section 3.1: "foo". -/
theorem test_b32enc_foo : answer .reset [0x01, 0x00, 0x03, 0x66, 0x6F, 0x6F] =
    [0x00, 0x00, 0x08, 0x4D, 0x5A, 0x58, 0x57, 0x36, 0x3D, 0x3D, 0x3D] := by decide
/-- 95 section 3.1: 161 bytes. -/
theorem test_b32enc_too_long : answer .reset ([0x01, 0x00, 0xA1] ++ List.replicate 161 0) = [0x03] := by decide +kernel
/-- 95 section 3.1: `=` skipped in the middle. -/
theorem test_b32dec_inner_padding : answer .reset [0x02, 0x00, 0x06, 0x4D, 0x5A, 0x3D, 0x58, 0x57, 0x36] =
    [0x00, 0x00, 0x03, 0x66, 0x6F, 0x6F] := by decide
/-- 95 section 3.1: `0` is no symbol. -/
theorem test_b32dec_bad_symbol : answer .reset [0x02, 0x00, 0x05, 0x4D, 0x5A, 0x58, 0x57, 0x30] =
    [0x05, 0x00, 0x00] := by decide
/-- 95 section 5, program 2, record 10: lower case. -/
theorem test_ldsec_k20 : after (port .reset ([0x03, 0x00, 0x20] ++ [0x67, 0x65, 0x7A, 0x64, 0x67, 0x6E, 0x62, 0x76, 0x67,
    0x79, 0x33, 0x74, 0x71, 0x6F, 0x6A, 0x71, 0x67, 0x65, 0x7A, 0x64, 0x67, 0x6E, 0x62, 0x76, 0x67, 0x79, 0x33, 0x74,
    0x71, 0x6F, 0x6A, 0x71])) = keyed20.respond .ok [0x01, 0x14] := by decide
/-- 95 section 3.1: a failed load empties the secret. -/
theorem test_ldsec_failure_empties : after (port keyed20 [0x03, 0x00, 0x04, 0x47, 0x45, 0x5A, 0x31]) =
    State.reset.respond .errB32Symbol [0x00, 0x00] := by decide
/-- 95 section 3.2: counter 2^64-1. -/
theorem test_hotp_last_counter : answer keyed20 [0x04, 0x06, 0xFF, 0xFF, 0xFF, 0xFF, 0xFF, 0xFF, 0xFF, 0xFF] =
    [0x00, 0x00, 0x01, 0x70, 0xF3] := by decide +kernel
/-- 95 section 3.2: no secret. -/
theorem test_hotp_no_secret : answer .reset [0x04, 0x06, 0, 0, 0, 0, 0, 0, 0, 0] = [0x06] := by decide
/-- 95 section 3.2: RFC 6238, time 59. -/
theorem test_totp_59 : answer keyed20 [0x05, 0x08, 0x00, 0x00, 0x00, 0x1E, 0, 0, 0, 0, 0, 0, 0, 0x3B] =
    [0x00, 0x05, 0x9E, 0xB4, 0xEA] := by decide +kernel
/-- 95 section 3.2: window 0. -/
theorem test_totp_window_zero : answer keyed20 [0x05, 0x06, 0, 0, 0, 0, 0, 0, 0, 0, 0, 0, 0, 0x05] = [0x04] := by
  decide
/-- 95 section 3.2: the leading zero is kept. -/
theorem test_verify_leading_zero : answer keyed20 [0x06, 0x06, 0x01, 0x00, 0x00, 0x00, 0x01, 0xFF, 0xFF, 0xFF, 0xFF,
    0xFF, 0xFF, 0xFF, 0xFF, 0x06, 0x30, 0x39, 0x34, 0x34, 0x35, 0x31] = [0x00, 0x00] := by decide +kernel
/-- 95 section 3.2: `ERR_PARAM` before `NO_ANSWER`. -/
theorem test_verify_priority : answer .reset [0x06, 0x00, 0x00, 0x00, 0x00, 0x01, 0x2C, 0x00, 0x00, 0x00, 0x00, 0x65,
    0x53, 0xF1, 0x00, 0x06, 0x32, 0x31, 0x35, 0x35, 0x30, 0x32] = [0x04] := by decide
/-- 95 section 4.1: the empty payload. -/
theorem test_feed_completes : after (port (rx [0x55, 0xAA, 0x00, 0x02, 0x00, 0x00] 7) [0x10, 0x01, 0x00, 0x00, 0x00, 0x1E]) =
    (rx [] 7).respond .ok [0x01, 0x00, 0x02, 0x00, 0x00] := by decide
/-- 95 section 4.1: 0x55 at offset 1 is not kept. -/
theorem test_feed_second_55 : after (port (rx [0x55] 7) [0x10, 0x55, 0x00, 0x00, 0x00, 0x14]) =
    (rx [] 7).respond .ok [0x03, 0x01, 0x55] := by decide
/-- 95 section 4.2: elapsed 301 across the wrap. -/
theorem test_tick_wrap : answer (rx [0x55] 0xFFFFFF00) [0x11, 0x00, 0x00, 0x00, 0x2D] =
    [0x00, 0x04, 0x00, 0x00, 0x00, 0x01] := by decide
/-- 95 section 4.2: elapsed 300 exactly. -/
theorem test_tick_300 : answer (rx [0x55] 0xFFFFFF00) [0x11, 0x00, 0x00, 0x00, 0x2C] = [0x00, 0x00] := by decide
/-- 95 section 4.3: the sum wraps. -/
theorem test_frame_wraps : answer .reset [0x12, 0xFF, 0xFF, 0x00, 0x03, 0xFF, 0xFF, 0xFF] =
    [0x00, 0x55, 0xAA, 0xFF, 0xFF, 0x00, 0x03, 0xFF, 0xFF, 0xFF, 0xFD] := by decide
/-- 95 section 4.4. -/
theorem test_status_k20 : answer (keyed20.setRxBuf [0x55, 0xAA]) [0x20] =
    [0x00, 0x02, 0x28, 0x00, 0x02, 0x00, 0x00, 0x00, 0x00] := by decide
/-- 95 section 4.5. -/
theorem test_rejected_records : answer .reset [] = [0x02] ∧ answer .reset [0x07, 0x01, 0x02] = [0x01] ∧
    answer .reset [0x20, 0x00] = [0x02] := by decide
/-- The table word of STATUS runs as the first instruction after reset: 95 section 4.4, after reset. -/
theorem test_fetch_word_status : after (State.reset.withFetchWord 8 0x20) =
    State.reset.respond .ok [0x04, 0x00, 0x00, 0x00, 0x00, 0x00, 0x00, 0x00] := by decide

/-! ## Functions: the standards' check values of 95_test_vectors.md section 2 -/

/-- 95 section 2.2, "abc". -/
theorem test_sha1_abc : fromBE (sha1 [0x61, 0x62, 0x63]) = 0xa9993e364706816aba3e25717850c26c9cd0d89d := by
  decide +kernel
/-- 95 section 2.2, the empty message. -/
theorem test_sha1_empty : fromBE (sha1 []) = 0xda39a3ee5e6b4b0d3255bfef95601890afd80709 := by decide +kernel
/-- 95 section 2.3, a key longer than 64 bytes: `hotp(bytes 0x00..0x40, 0, 6)`. -/
theorem test_hotp_hashed_key : hotp ((List.range 65).map (BitVec.ofNat 8)) 0 6 = 337508 := by decide +kernel
/-- 95 section 2.1. -/
theorem test_b32encode_foobar : b32encode [0x66, 0x6F, 0x6F, 0x62, 0x61, 0x72] =
    [0x4D, 0x5A, 0x58, 0x57, 0x36, 0x59, 0x54, 0x42, 0x4F, 0x49, 0x3D, 0x3D, 0x3D, 0x3D, 0x3D, 0x3D] := by
  decide
/-- R92 and R93, the records of 95 section 5, programs 1 and 2. -/
theorem test_assemble : assembleRecords "FEEDS x\"00 13\", @100, +1 ; two bytes\nUNLOCK d=6, tv=1, t=1700000000, \"215502\"" =
    some [[0x10, 0x00, 0x00, 0x00, 0x00, 0x64], [0x10, 0x13, 0x00, 0x00, 0x00, 0x65],
      [0x06, 0x06, 0x01, 0x00, 0x00, 0x01, 0x2C, 0x00, 0x00, 0x00, 0x00, 0x65, 0x53, 0xF1, 0x00, 0x06,
        0x32, 0x31, 0x35, 0x35, 0x30, 0x32]] := by decide

/-- A semicolon inside a string is a character of the string (the model's choice, log entry 8). -/
theorem test_assemble_semicolon : assemble "B32DEC \"A;B\" ; text" = some [.b32dec [0x41, 0x3B, 0x42]] := by
  decide

/-! ## Witnesses: for each statement with hypotheses, states and operands that meet them -/

/-- A partial frame with an empty payload: the next byte is its checksum. -/
def atChecksum : State := rx [0x55, 0xAA, 0x00, 0x02, 0x00, 0x00] 7

/-- The bytes `MZ0`: `0` has no value. -/
def badText : List Byte := [0x4D, 0x5A, 0x30]

theorem witness_ResetInputClearsState :
    ({ atChecksum with pending := [.reset (some [0x20])] } : State).pending = .reset (some [0x20]) :: [] := rfl
theorem witness_StepRunsDecodedRecord :
    (port .reset [0x20]).pending = .record [0x20] :: [] ∧ decode [0x20] = .ok .status := ⟨rfl, rfl⟩
theorem witness_IdlePortKeepsState : State.reset.pending = [] := rfl
theorem witness_MalformedRecords_empty : (port .reset []).pending = .record [] :: [] := rfl
theorem witness_MalformedRecords_short : (port .reset [0x01, 0x00]).pending = .record [0x01, 0x00] :: [] ∧
    layoutLength [0x01, 0x00] = some 3 ∧ [0x01, 0x00].length ≠ 3 := ⟨rfl, by decide, by decide⟩
theorem witness_MalformedRecords_long : (port .reset [0x20, 0x00]).pending = .record [0x20, 0x00] :: [] ∧
    layoutLength [0x20, 0x00] = some 1 ∧ [0x20, 0x00].length ≠ 1 := ⟨rfl, by decide, by decide⟩
theorem witness_MalformedRecords_exact : layoutLength [0x03, 0x00, 0x01, 0x41] = some 4 ∧
    ([0x03, 0x00, 0x01, 0x41] : List Byte).length = 4 := by decide
theorem witness_IllegalOpcodes_boundaries : ∀ b ∈ ([0x00, 0x07, 0x0F, 0x13, 0x1F, 0x21, 0xFF] : List Byte),
    (port .reset [b]).pending = .record (b :: []) :: [] ∧ (b.toNat = 0 ∨ (0x07 ≤ b.toNat ∧ b.toNat ≤ 0x0F) ∨
      (0x13 ≤ b.toNat ∧ b.toNat ≤ 0x1F) ∨ 0x21 ≤ b.toNat) := by
  decide
theorem witness_IllegalOpcodes_flags : 2 ≤ (2 : Byte).toNat := by decide
theorem witness_EveryRecordGetsOneResponse : (port .reset [0x07]).pending = .record [0x07] :: [] := rfl
theorem witness_StatusFollowsPriority : (port keyed20 [0x20]).pending = .record [0x20] :: [] := rfl
theorem witness_ErrorStatusWritesNoState_ldsec :
    (port keyed20 (encode (.ldsec badText))).pending = .record (encode (.ldsec badText)) :: [] ∧
    step (port keyed20 (encode (.ldsec badText))) = .next (State.reset.respond .errB32Symbol [0x00, 0x00]) ∧
    (State.reset.respond .errB32Symbol [0x00, 0x00]).responses =
      (port keyed20 (encode (.ldsec badText))).responses ++ [0x05 :: [0x00, 0x00]] ∧ (0x05 : Byte) ≠ 0x00 :=
  ⟨rfl, rfl, rfl, by decide⟩
theorem witness_ErrorStatusWritesNoState_other :
    (port atChecksum [0x07]).pending = .record [0x07] :: [] ∧
    step (port atChecksum [0x07]) = .next (atChecksum.respond .errIllegalOp []) ∧
    (atChecksum.respond .errIllegalOp []).responses = (port atChecksum [0x07]).responses ++ [0x01 :: []] ∧
    (0x01 : Byte) ≠ 0x00 := ⟨rfl, rfl, rfl, by decide⟩
theorem witness_WritersOfEachElement_rxBuf : step (port .reset [0x10, 0x55, 0, 0, 0, 9]) =
    .next ((rx [0x55] 9).emit .none) ∧ ((rx [0x55] 9).emit .none).rxBuf ≠ (port .reset [0x10, 0x55, 0, 0, 0, 9]).rxBuf ∧
    ((rx [0x55] 9).emit .none).rxLastMs ≠ (port .reset [0x10, 0x55, 0, 0, 0, 9]).rxLastMs := ⟨rfl, by decide, by decide⟩
theorem witness_WritersOfEachElement_secret : step (port keyed20 [0x03, 0x00, 0x00]) =
    .next (State.reset.respond .ok [0x00, 0x00]) ∧
    (State.reset.respond .ok [0x00, 0x00]).secret ≠ (port keyed20 [0x03, 0x00, 0x00]).secret := ⟨rfl, by decide⟩
theorem witness_RunsAreSequential : keyed20.pending = [] := rfl
theorem witness_SecretBytesStayHidden : (List.replicate 20 (0 : Byte)).length = keyed20.secret.length ∧
    (∀ d c, Instr.status ≠ .hotp d c) ∧ (∀ d w t, Instr.status ≠ .totp d w t) ∧
    (∀ d f w t c, Instr.status ≠ .verify d f w t c) := by
  refine ⟨rfl, by simp, by simp, by simp⟩
theorem witness_IssuedTwice_status : (∀ b now, Instr.status ≠ .feed b now) ∧ (∀ now, Instr.status ≠ .tick now) ∧
    exec .status .reset = .next (State.reset.respond .ok [0x04, 0, 0, 0, 0, 0, 0, 0]) := by
  refine ⟨by simp, by simp, rfl⟩
theorem witness_IssuedTwice_tick : exec (.tick 308) atChecksum = .next ((rx [] 7).emit (.rxTimeout 6)) := rfl
theorem witness_DecodeOfEncode_boundary : (Instr.verify 6 1 300 0 (List.replicate 255 0x30)).WellFormed = true := by
  simp only [Instr.WellFormed, List.length_replicate]; decide
theorem witness_EncodeOfDecode : decode [0x11, 0x00, 0x00, 0x05, 0x78] = .ok (.tick 1400) := rfl
theorem witness_StepKeepsInvariant : (port (rx [0x55, 0xAA, 1, 2, 0] 7) [0x10, 0x00, 0, 0, 0, 9]).inv ∧
    step (port (rx [0x55, 0xAA, 1, 2, 0] 7) [0x10, 0x00, 0, 0, 0, 9]) =
      .next ((rx [0x55, 0xAA, 1, 2, 0, 0] 9).emit .none) := ⟨by decide, rfl⟩
theorem witness_EveryInstantiationKeepsInvariant : small.wf ∧ keyed20.invAt small ∧
    execAt small (.tick 9) keyed20 = .next (keyed20.emit .none) := ⟨by decide, by decide, rfl⟩
theorem witness_EveryInstantiationDecodes : small.wf ∧ (Instr.totp 6 0xFF 0xFFFFFFFF).WellFormed = true ∧
    (Instr.totp 6 0xFF 0xFFFFFFFF).operandsFit small = true ∧
    decodeAt small [0x05, 0x06, 0xFF, 0xFF, 0xFF, 0xFF, 0xFF] = .ok (.totp 6 0xFF 0xFFFFFFFF) := by decide
theorem witness_B32enc_boundary : (List.replicate 160 (0 : Byte)).length ≤ 160 ∧ 160 < (List.replicate 161 (0 : Byte)).length := by
  simp
theorem witness_B32dec_out : (List.replicate 256 (0x41 : Byte)).length ≤ 256 ∧
    b32decode (List.replicate 256 0x41) = some (List.replicate 160 0) := by decide +kernel
theorem witness_B32dec_bad : badText.length ≤ 256 ∧ ∃ c ∈ badText, c ≠ 0x3D ∧ symval c = none := by decide
theorem witness_B32dec_over : 256 < (List.replicate 257 (0x41 : Byte)).length := by
  rw [List.length_replicate]; decide
theorem witness_Ldsec_out : ([0x4D] : List Byte).length ≤ 256 ∧ b32decode [0x4D] = some [] := by decide
theorem witness_SymbolValues_boundaries : symval 0x41 = some 0 ∧ symval 0x5A = some 25 ∧ symval 0x61 = some 0 ∧
    symval 0x7A = some 25 ∧ symval 0x32 = some 26 ∧ symval 0x37 = some 31 ∧ symval 0x31 = none ∧ symval 0x38 = none ∧
    symval 0x40 = none ∧ symval 0x5B = none ∧ symval 0x60 = none ∧ symval 0x7B = none := by decide
theorem witness_EncoderWrites : 6 < (8 * [0x66, 0x6F, 0x6F, 0x62].length + 4) / 5 ∧ 7 < (b32encode [0x66, 0x6F, 0x6F, 0x62]).length := by
  decide
theorem witness_DecoderReads : b32decode [0x4D, 0x5A, 0x3D] = some [0x66] ∧
    [0x4D, 0x5A] = [0x4D, 0x5A, 0x3D].filter (fun c : Byte => decide (c ≠ 0x3D)) := by decide
theorem witness_FailedLoadLosesSecret : badText.length ≤ 256 ∧ (∃ c ∈ badText, c ≠ 0x3D ∧ symval c = none) ∧
    1 ≤ (10 : Byte).toNat ∧ (10 : Byte).toNat ≤ 10 ∧ (300 : Word32) ≠ 0 := by decide
theorem witness_Sha1Pads : 4 * 15 + 4 ≤ (sha1Pad []).length := by decide
theorem witness_Schedule : (List.replicate 16 (0 : Word32)).length = 16 := rfl
theorem witness_HmacPreparesKey : 64 < (List.replicate 65 (0 : Byte)).length ∧ (List.replicate 64 (0 : Byte)).length ≤ 64 ∧
    k20.length + 44 ≤ 64 := by decide
theorem witness_Truncation : (List.replicate 20 (0xFF : Byte)).length = 20 ∧
    15 = (byteAt (List.replicate 20 0xFF) 19 &&& 0x0F).toNat := by decide
theorem witness_OtpLaws : 1699999800 / 300 = 1700000099 / 300 ∧ 1 ≤ 10 ∧ 10 ≤ 10 := by decide
theorem witness_DecimalText : 755224 < 10 ^ 6 := by decide
theorem witness_Hotp_completes : 1 ≤ (1 : Byte).toNat ∧ (1 : Byte).toNat ≤ 10 ∧ 1 ≤ (10 : Byte).toNat ∧
    (10 : Byte).toNat ≤ 10 ∧ keyed20.secret ≠ [] := by decide
theorem witness_Hotp_errors : (0 : Byte).toNat = 0 ∧ 10 < (11 : Byte).toNat ∧ 1 ≤ (6 : Byte).toNat ∧
    (6 : Byte).toNat ≤ 10 ∧ State.reset.secret = [] := by decide
theorem witness_Totp_completes : 1 ≤ (8 : Byte).toNat ∧ (8 : Byte).toNat ≤ 10 ∧ (1 : Word32) ≠ 0 ∧ keyed20.secret ≠ [] := by
  decide
theorem witness_Totp_errors : (0 : Byte).toNat = 0 ∧ 10 < (11 : Byte).toNat ∧ (0 : Word32) = 0 ∧
    1 ≤ (8 : Byte).toNat ∧ (8 : Byte).toNat ≤ 10 ∧ (1 : Word32) ≠ 0 ∧ State.reset.secret = [] := by decide
theorem witness_Verify_completes : 1 ≤ (6 : Byte).toNat ∧ (6 : Byte).toNat ≤ 10 ∧ (300 : Word32) ≠ 0 ∧ keyed20.secret ≠ [] := by
  decide
theorem witness_Verify_errors : 2 ≤ (2 : Byte).toNat ∧ (0 : Byte).toNat = 0 ∧ 10 < (11 : Byte).toNat ∧ (0 : Word32) = 0 := by
  decide
theorem witness_Verify_noAnswer : (0 : Byte).toNat < 2 ∧ (1 : Byte).toNat < 2 ∧ 1 ≤ (6 : Byte).toNat ∧
    (6 : Byte).toNat ≤ 10 ∧ (300 : Word32) ≠ 0 ∧ (0 : Byte).toNat = 0 ∧ State.reset.secret = [] := by decide
theorem witness_VerifySameWindow : 1 ≤ (6 : Byte).toNat ∧ (6 : Byte).toNat ≤ 10 ∧ (300 : Word32) ≠ 0 ∧ keyed20.secret ≠ [] ∧
    (1699999800 : Word64).toNat / (300 : Word32).toNat = (1700000099 : Word64).toNat / (300 : Word32).toNat := by
  decide
theorem witness_FeedKeeps_header : (State.reset.rxBuf.length = 0 ∧ (0x55 : Byte) = 0x55) ∧
    ((rx [0x55] 7).rxBuf.length = 1 ∧ (0xAA : Byte) = 0xAA) := by decide
theorem witness_FeedKeeps_fields : (rx [0x55, 0xAA] 7).rxBuf.length = 2 ∧ (rx [0x55, 0xAA, 1, 2, 0] 7).rxBuf.length = 5 := by
  decide
theorem witness_FeedKeeps_payload : 6 ≤ (rx [0x55, 0xAA, 1, 2, 0, 1] 7).rxBuf.length ∧
    (rx [0x55, 0xAA, 1, 2, 0, 1] 7).rxBuf.length < 6 + be16 (byteAt [0x55, 0xAA, 1, 2, 0, 1] 4) (byteAt [0x55, 0xAA, 1, 2, 0, 1] 5) := by
  decide
theorem witness_FeedKeeps_refused : RxBufOk State.reset.rxBuf ∧ ¬ ((State.reset.rxBuf.length = 0 ∧ (0x54 : Byte) = 0x55) ∨
    (State.reset.rxBuf.length = 1 ∧ (0x54 : Byte) = 0xAA) ∨
    (2 ≤ State.reset.rxBuf.length ∧ State.reset.rxBuf.length ≤ 5) ∨
    (6 ≤ State.reset.rxBuf.length ∧
      State.reset.rxBuf.length < 6 + be16 (byteAt State.reset.rxBuf 4) (byteAt State.reset.rxBuf 5))) := by decide
theorem witness_FeedKeeps_completing : RxBufOk atChecksum.rxBuf ∧ ¬ ((atChecksum.rxBuf.length = 0 ∧ (0x01 : Byte) = 0x55) ∨
    (atChecksum.rxBuf.length = 1 ∧ (0x01 : Byte) = 0xAA) ∨
    (2 ≤ atChecksum.rxBuf.length ∧ atChecksum.rxBuf.length ≤ 5) ∨
    (6 ≤ atChecksum.rxBuf.length ∧
      atChecksum.rxBuf.length < 6 + be16 (byteAt atChecksum.rxBuf 4) (byteAt atChecksum.rxBuf 5))) := by decide
theorem witness_FeedRefuses : State.reset.rxBuf.length = 0 ∧ (0x54 : Byte) ≠ 0x55 ∧ (rx [0x55] 7).rxBuf.length = 1 ∧
    (0x55 : Byte) ≠ 0xAA := by decide
theorem witness_FeedCompletes : 6 ≤ atChecksum.rxBuf.length ∧
    atChecksum.rxBuf.length = 6 + be16 (byteAt atChecksum.rxBuf 4) (byteAt atChecksum.rxBuf 5) ∧
    0x01 = byteSum atChecksum.rxBuf ∧ 0x02 ≠ byteSum atChecksum.rxBuf := by decide
theorem witness_TickClears : 300 < ((308 : Millis).toNat + 2 ^ 32 - atChecksum.rxLastMs.toNat) % 2 ^ 32 ∧ atChecksum.rxBuf ≠ [] := by
  decide
theorem witness_TickKeeps : ((307 : Millis).toNat + 2 ^ 32 - atChecksum.rxLastMs.toNat) % 2 ^ 32 ≤ 300 ∧ State.reset.rxBuf = [] := by
  decide
theorem witness_FrameBuilds : ([0xAA, 0xBB] : List Byte).length < 65536 ∧
    [0x55, 0xAA, 0x00, 0x01, 0x00, 0x02, 0xAA, 0xBB] = ([0x55, 0xAA, 0x00, 0x01, BitVec.ofNat 8 (2 / 256), BitVec.ofNat 8 (2 % 256)]
      ++ [0xAA, 0xBB] : List Byte) := by decide
theorem witness_StatusWordFields : keyed20.rxBuf.length ≤ 65541 ∧ keyed20.secret.length ≤ 160 := by decide
theorem witness_LoopBack : ([0xAA, 0xBB] : List Byte).length < 65536 ∧ State.reset.rxBuf = [] ∧
    (List.replicate 9 (5 : Millis)).length = 7 + ([0xAA, 0xBB] : List Byte).length := by decide
theorem witness_GarbageIsSkipped : ([0xAA, 0xBB] : List Byte).length < 65536 ∧ State.reset.rxBuf = [] ∧
    (List.replicate 9 (5 : Millis)).length = 7 + ([0xAA, 0xBB] : List Byte).length ∧
    ∀ p ∈ ([(0x00, 1), (0x13, 2)] : List (Byte × Millis)), p.1 ≠ 0x55 :=
  ⟨by decide, rfl, by decide, by simp⟩
theorem witness_StrayHeaderByte : (rx [0x55] 0).rxBuf = [0x55] ∧ (List.replicate 9 (5 : Millis)).length = 7 + 2 ∧
    0x55 ∉ (frameBytes 0 1 [0xAA, 0xBB]).drop 1 := by decide
theorem witness_SingleBit_checksum : ([0xAA, 0xBB] : List Byte).length < 65536 ∧ State.reset.rxBuf = [] ∧
    (List.replicate 9 (5 : Millis)).length = 7 + ([0xAA, 0xBB] : List Byte).length ∧ 0 < 8 ∧ 6 ≤ 8 ∧
    8 ≤ 6 + ([0xAA, 0xBB] : List Byte).length ∧ [0x55, 0xAA, 0x00, 0x01, 0x00, 0x02, 0xAA, 0xBB, 0x66] =
      flipBit (frameBytes 0 1 [0xAA, 0xBB]) 8 0 := by decide
theorem witness_SingleBit_version : 7 < 8 ∧ [0x55, 0xAA, 0x80, 0x01, 0x00, 0x02, 0xAA, 0xBB, 0x67] =
    flipBit (frameBytes 0 1 [0xAA, 0xBB]) 2 7 := by decide
theorem witness_SingleBit_header : State.reset.rxBuf = [] ∧ ([5, 6] : List Millis).length = 1 + 1 ∧ 0 < 8 ∧ 1 < 2 ∧
    [0x55, 0xAB, 0x00, 0x01, 0x00, 0x00, 0x00] = flipBit (frameBytes 0 1 []) 1 0 := by decide
theorem witness_HardwareIsDefault : small.wf ∧ atChecksum.rxBuf ≠ [] := by decide
theorem witness_Pseudo : 1 < ([0x00, 0x13] : List Byte).length ∧ ([0x00, 0x13] : List Byte) ≠ [] ∧ 100 < 2 ^ 32 := by decide
theorem witness_Assembled : assemble "STATUS" = some [.status] := by decide
theorem witness_UnlockOfMcu : keyed20.secret ≠ [] := by decide

/-! ## Witnesses of the length clauses: one record a layout with one byte too many, its own `n` unchanged -/

theorem witness_wrongLength_port (rec : List Byte) : (port .reset rec).pending = .record rec :: [] := rfl
theorem witness_wrongLength : ∀ p ∈ ([([0x01, 0x00, 0x00, 0x00], 3), ([0x02, 0x00, 0x00, 0x00], 3), ([0x03, 0x00, 0x00, 0x00], 3),
    (List.cons 0x04 (List.replicate 10 0), 10), (List.cons 0x05 (List.replicate 14 0), 14), (List.cons 0x06 (List.replicate 16 0), 16),
    ([0x10, 0, 0, 0, 0, 0, 0], 6), ([0x11, 0, 0, 0, 0, 0], 5), ([0x12, 0, 0, 0, 0, 0], 5), ([0x20, 0], 1)] : List (List Byte × Nat)),
    layoutLength p.1 = some p.2 ∧ p.1.length ≠ p.2 := by decide

end Sys2Proof.Tests
end

/-! PROOF. The status word as a sum of its fields (spec/10_state.md R31), and its value after reset (R35): settles
O51 and O1. -/

namespace Sys2Proof.Machine

open Sys2Proof

/-- Placing a field above a word that lies below it, without leaving the word's width, adds the field at its weight. -/
theorem toNat_or_field {w : Nat} (x y : BitVec w) (i : Nat) (hx : x.toNat < 2 ^ i) (hy : y.toNat * 2 ^ i < 2 ^ w) :
    (x ||| y <<< i).toNat = x.toNat + y.toNat * 2 ^ i := by
  have hfits : (y <<< i).toNat = y.toNat <<< i := by
    rw [BitVec.toNat_shiftLeft, Nat.mod_eq_of_lt (by rwa [Nat.shiftLeft_eq])]
  rw [BitVec.toNat_or, hfits, Nat.or_comm, ← Nat.shiftLeft_add_eq_or_of_lt hx, Nat.shiftLeft_eq, Nat.add_comm]

@[simp] theorem bit_toNat (b : Bool) : (bit b).toNat = b.toNat := by cases b <;> rfl

/-- The secret is valid exactly if it is not empty (R27). -/
theorem secretValid_toNat (s : State) : s.secretValid.toNat = if s.secret = [] then 0 else 1 := by
  cases h : s.secret <;> simp [State.secretValid, h]

/-- `RX_EMPTY` says that the buffer is empty (R28, R30). -/
theorem rxEmpty_toNat (s : State) : s.rxEmpty.toNat = if s.rxBuf = [] then 1 else 0 := by
  cases h : s.rxBuf <;> simp [State.rxEmpty, State.rxLen, h]

/-- The fields of R31 do not overlap while each length fits its own: the status word is their sum, each at its
weight. -/
theorem statusWord_toNat (s : State) (hrx : s.rxBuf.length < 2 ^ 17) (hsec : s.secret.length < 2 ^ 8) :
    s.statusWord.toNat = s.rxBuf.length + s.secret.length * 2 ^ 17 + s.secretValid.toNat * 2 ^ 25
      + s.rxEmpty.toNat * 2 ^ 26 := by
  have hvalid := Bool.toNat_le s.secretValid
  have hempty := Bool.toNat_le s.rxEmpty
  have hrxWord : (BitVec.ofNat 32 s.rxLen).toNat = s.rxBuf.length :=
    Nat.mod_eq_of_lt (show s.rxBuf.length < 2 ^ 32 by omega)
  have hsecWord : (BitVec.ofNat 32 s.secret.length).toNat = s.secret.length := Nat.mod_eq_of_lt (by omega)
  have hlow : (BitVec.ofNat 32 s.rxLen ||| BitVec.ofNat 32 s.secret.length <<< 17).toNat
      = s.rxBuf.length + s.secret.length * 2 ^ 17 := by
    rw [toNat_or_field _ _ 17 (by omega) (by omega), hrxWord, hsecWord]
  have hmid : (BitVec.ofNat 32 s.rxLen ||| BitVec.ofNat 32 s.secret.length <<< 17 ||| bit s.secretValid <<< 25).toNat
      = s.rxBuf.length + s.secret.length * 2 ^ 17 + s.secretValid.toNat * 2 ^ 25 := by
    rw [toNat_or_field _ _ 25 (by omega) (by rw [bit_toNat]; omega), hlow, bit_toNat]
  rw [State.statusWord, toNat_or_field _ _ 26 (by omega) (by rw [bit_toNat]; omega), hmid, bit_toNat]

/-- After reset `RX_EMPTY` alone is set (R31, R35). -/
theorem statusWord_reset : State.reset.statusWord = 0x04000000 := by
  have hsum := statusWord_toNat State.reset (by decide) (by decide)
  exact BitVec.eq_of_toNat_eq hsum

/-- Settles O51: the fields are read off the sum `statusWord_toNat`, each lower one being below the next weight. -/
theorem statusWordFields : Obligations.StatusWordFields := by
  refine ⟨fun s hrx hsec => ?_, statusWord_reset⟩
  have hvalid := Bool.toNat_le s.secretValid
  have hempty := Bool.toNat_le s.rxEmpty
  rw [← secretValid_toNat, ← rxEmpty_toNat, statusWord_toNat s (by omega) (by omega)]
  refine ⟨?rxLen, ?secretLen, ?secretValid, ?rxEmpty, ?reserved⟩ <;> omega

/-- Settles O1: the elements and the derived values of R35 are those of `State.reset`, the word is
`statusWord_reset`. -/
theorem resetHoldsSpecValues : Obligations.ResetHoldsSpecValues :=
  ⟨rfl, rfl, rfl, rfl, rfl, rfl, statusWord_reset⟩

end Sys2Proof.Machine

/-! PROOF. The illegal opcodes, the malformed records and the one response of every record (spec/30_encoding.md R82
to R85, spec/60_exceptions.md R251): settles O6, O5 and O7. -/

namespace Sys2Proof.Machine

open Sys2Proof Sys2Proof.Claims

/-! ### The table of R80, read from a record's bytes -/

/-- A field of one byte is that byte; past the end of the record both are 0. -/
theorem fieldNat_one (rec : List Byte) (off : Nat) : fieldNat rec off 1 = (byteAt rec off).toNat := by
  rcases Nat.lt_or_ge off rec.length with hin | hpast
  · have hslice : slice rec off 1 = [byteAt rec off] := by
      rw [slice, List.drop_eq_getElem_cons hin, List.take_succ_cons, List.take_zero, byteAt,
        List.getD_eq_getElem _ _ hin]
    simp [fieldNat, hslice, fromBE_cons]
  · have hslice : slice rec off 1 = [] := by rw [slice, List.drop_eq_nil_of_le hpast, List.take_nil]
    simp [fieldNat, hslice, byteAt, hpast]

/-- Every first byte in the four ranges of R83 is illegal. -/
theorem opcodeOf_eq_none_of_illegal {b : Byte}
    (h : b.toNat = 0 ∨ (0x07 ≤ b.toNat ∧ b.toNat ≤ 0x0F) ∨ (0x13 ≤ b.toNat ∧ b.toNat ≤ 0x1F) ∨ 0x21 ≤ b.toNat) :
    opcodeOf b = none := by
  rcases opcodeOf_cases b with hnone | ⟨op, -, rfl⟩
  · exact hnone
  · cases op <;> simp [Opcode.byte] at h

/-- The record length that the statements write out is the model's own, for each opcode of the table. -/
theorem layoutLength_byte_cons (op : Opcode) (body : List Byte) :
    layoutLength (op.byte :: body) = some (recordLength Config.hardware op (op.byte :: body)) := by
  cases op with
  | verify => exact congrArg (fun n => some (16 + n)) (fieldNat_one _ 15).symm
  | _ => rfl

/-- A first byte outside the table has no layout. -/
theorem layoutLength_cons_of_illegal {b : Byte} (h : opcodeOf b = none) (body : List Byte) :
    layoutLength (b :: body) = none := by
  have hhead : byteAt (b :: body) 0 = b := rfl
  unfold layoutLength
  rw [hhead]
  unfold opcodeOf at h
  split <;> simp_all

/-- A record with a layout begins with an opcode, and the layout's length is the one its opcode and `n` give. -/
theorem layoutLength_eq_some {rec : List Byte} {len : Nat} (h : layoutLength rec = some len) :
    ∃ op body, rec = op.byte :: body ∧ len = recordLength Config.hardware op rec := by
  cases rec with
  | nil => cases h
  | cons b body =>
    rcases opcodeOf_cases b with hnone | ⟨op, -, rfl⟩
    · rw [layoutLength_cons_of_illegal hnone] at h
      cases h
    · rw [layoutLength_byte_cons, Option.some.injEq] at h
      exact ⟨op, body, rfl, h.symm⟩

/-! ### Records that are no instruction -/

/-- A rejected record is answered by its status byte, and nothing else changes (R82, R83). -/
theorem step_of_reject {s : State} {rec : List Byte} {rest : List PortInput} {why : Reject}
    (hport : s.pending = .record rec :: rest) (hdec : decode rec = .error why) :
    step s = .next (answered { s with pending := rest } [(rejectStatus why).code]) := by
  rw [step_of_record hport, perform_of_error hdec]
  rfl

theorem decode_cons_of_illegal {b : Byte} (h : opcodeOf b = none) (body : List Byte) :
    decode (b :: body) = .error .illegalOpcode := by
  simp only [decode, decodeAt, h]

/-- A record that begins with an opcode decodes exactly at the length its opcode and `n` give (R82). -/
theorem decode_byte_cons (op : Opcode) (body : List Byte) :
    ((op.byte :: body).length = recordLength Config.hardware op (op.byte :: body) ∧
      decode (op.byte :: body) = .ok (operandsOf Config.hardware op (op.byte :: body))) ∨
    ((op.byte :: body).length ≠ recordLength Config.hardware op (op.byte :: body) ∧
      ∃ why, decode (op.byte :: body) = .error why ∧ rejectStatus why = .errFormat) := by
  have hmin := minLength_le_recordLength Config.hardware op (op.byte :: body)
  simp only [decode, decodeAt, opcodeOf_byte]
  split_ifs with hshort hwrong
  · exact .inr ⟨by omega, .tooShort, rfl, rfl⟩
  · exact .inr ⟨hwrong, .wrongLength, rfl, rfl⟩
  · exact .inl ⟨not_not.mp hwrong, rfl⟩

/-- Settles O6: the ranges of R83 lie outside the table; VERIFY checks its reserved flags first
(`verifyAt_cases`). -/
theorem illegalOpcodesEndInIllegalOp : Obligations.IllegalOpcodesEndInIllegalOp := by
  refine ⟨fun s b body rest hport hb => ?opcode, fun s d flags window time code hflags => ?verify⟩
  case opcode => exact step_of_reject hport (decode_cons_of_illegal (opcodeOf_eq_none_of_illegal hb) body)
  case verify =>
    rw [exec_eq_execAt]
    rcases verifyAt_cases Config.hardware d flags window time code s with ⟨-, h⟩ | ⟨hlow, -⟩ | ⟨hone, -⟩
    · exact h
    · omega
    · omega

/-- Settles O5: a layout's length is `recordLength`, and off that length `decode` rejects with `ERR_FORMAT`. -/
theorem malformedRecordsEndInFormatError : Obligations.MalformedRecordsEndInFormatError := by
  refine ⟨fun s rest hport => ?empty, fun s rec rest len hport hlayout hlen => ?wrongLength,
    fun rec len hlayout hlen => ?rightLength⟩
  case empty => exact step_of_reject hport rfl
  case wrongLength =>
    obtain ⟨op, body, rfl, rfl⟩ := layoutLength_eq_some hlayout
    rcases decode_byte_cons op body with ⟨heq, -⟩ | ⟨-, why, hdec, hstatus⟩
    · exact absurd heq hlen
    · rw [step_of_reject hport hdec, hstatus]
      rfl
  case rightLength =>
    obtain ⟨op, body, rfl, rfl⟩ := layoutLength_eq_some hlayout
    rcases decode_byte_cons op body with ⟨-, hdec⟩ | ⟨hne, -⟩
    · exact ⟨_, hdec⟩
    · exact absurd hlen hne

/-! ### The one response of an operation -/

theorem Status.code_toNat_le (st : Status) : st.code.toNat ≤ 7 := by cases st <;> decide

/-- The fields R85 lists for a status: an error has none, except the two zero bytes of a symbol that does not
decode. -/
def FieldsOfStatus (op : Opcode) (st : Status) (fields : List Byte) : Prop :=
  st = .ok ∨ fields = [] ∨ (st = .errB32Symbol ∧ fields = [0x00, 0x00] ∧ (op = .b32dec ∨ op = .ldsec))

/-- An operation completes with one response, whose fields are those of its status; the port is untouched. -/
def AnswersOnce (op : Opcode) (s : State) (out : Host.Outcome State Fault Refusal) : Prop :=
  ∃ t st fields, out = .next t ∧ t.pending = s.pending ∧ t.responses = s.responses ++ [st.code :: fields] ∧
    FieldsOfStatus op st fields

/-- Ending in `respond` from a state with the same port and responses is answering once. -/
theorem answersOnce_respond {op : Opcode} {s u : State} {st : Status} {fields : List Byte}
    {out : Host.Outcome State Fault Refusal} (hout : out = .next (u.respond st fields))
    (hport : u.pending = s.pending) (hresp : u.responses = s.responses) (hfields : FieldsOfStatus op st fields) :
    AnswersOnce op s out :=
  ⟨_, st, fields, hout, hport, by rw [State.respond_responses, hresp], hfields⟩

theorem answersOnce_ok {op : Opcode} {s u : State} {fields : List Byte} {out : Host.Outcome State Fault Refusal}
    (hout : out = .next (u.respond .ok fields)) (hport : u.pending = s.pending)
    (hresp : u.responses = s.responses) : AnswersOnce op s out :=
  answersOnce_respond hout hport hresp (.inl rfl)

theorem answersOnce_raise {op : Opcode} {s : State} {st : Status} {out : Host.Outcome State Fault Refusal}
    (hout : out = .next (s.raise st)) : AnswersOnce op s out :=
  answersOnce_respond hout rfl rfl (.inr (.inl rfl))

/-- Every operation answers once, by the ways its own lemma says it can end (R84). -/
theorem execAt_answersOnce (cfg : Config) (i : Instr) (s : State) :
    AnswersOnce (opcodeOfInstr i) s (execAt cfg i s) := by
  cases i with
  | b32enc data =>
    rcases b32encAt_cases cfg data s with ⟨-, h⟩ | ⟨-, h⟩
    · exact answersOnce_raise h
    · exact answersOnce_ok h rfl rfl
  | b32dec text =>
    rcases b32decAt_cases cfg text s with ⟨-, h⟩ | ⟨-, -, h⟩ | ⟨_, -, -, h⟩
    · exact answersOnce_raise h
    · exact answersOnce_respond h rfl rfl (.inr (.inr ⟨rfl, rfl, .inl rfl⟩))
    · exact answersOnce_ok h rfl rfl
  | ldsec text =>
    rcases ldsecAt_cases cfg text s with ⟨-, h⟩ | ⟨-, -, h⟩ | ⟨_, -, -, h⟩
    · exact answersOnce_raise h
    · exact answersOnce_respond h rfl rfl (.inr (.inr ⟨rfl, rfl, .inr rfl⟩))
    · exact answersOnce_ok h rfl rfl
  | hotp d counter =>
    rcases hotpAt_cases cfg d counter s with ⟨-, h⟩ | ⟨-, -, h⟩ | ⟨-, -, h⟩
    · exact answersOnce_raise h
    · exact answersOnce_raise h
    · exact answersOnce_ok h rfl rfl
  | totp d window time =>
    rcases totpAt_cases cfg d window time s with ⟨-, h⟩ | ⟨-, -, -, h⟩ | ⟨-, -, -, h⟩
    · exact answersOnce_raise h
    · exact answersOnce_raise h
    · exact answersOnce_ok h rfl rfl
  | verify d flags window time code =>
    rcases verifyAt_cases cfg d flags window time code s with ⟨-, h⟩ | ⟨-, -, -, -, h⟩ | ⟨-, -, -, -, h⟩
    · exact answersOnce_raise h
    · exact answersOnce_raise h
    · exact answersOnce_ok h rfl rfl
  | feed byte now =>
    rcases execFeed_cases byte now s with ⟨-, h⟩ | ⟨-, h⟩ | ⟨_, -, h⟩ | ⟨_, _, -, h⟩ <;>
      exact answersOnce_ok h rfl rfl
  | tick now =>
    rcases tickAt_cases cfg now s with ⟨-, -, h⟩ | ⟨-, h⟩ <;> exact answersOnce_ok h rfl rfl
  | frame version cmd payload => exact answersOnce_ok rfl rfl rfl
  | status => exact answersOnce_ok rfl rfl rfl

theorem opcodeOfInstr_operandsOf (cfg : Config) (op : Opcode) (rec : List Byte) :
    opcodeOfInstr (operandsOf cfg op rec) = op := by cases op <;> rfl

/-- The first byte of a record that decodes is the opcode of its instruction (R81). -/
theorem head?_of_decode_ok {rec : List Byte} {i : Instr} (h : decode rec = .ok i) :
    rec.head? = some (opcodeOfInstr i).byte := by
  rcases decode_cases rec with ⟨-, he⟩ | ⟨_, _, -, -, he⟩ | ⟨_, _, -, -, he⟩ | ⟨_, _, -, -, -, he⟩ |
    ⟨op, body, rfl, -, hok⟩
  case inr.inr.inr.inr =>
    rw [hok, Except.ok.injEq] at h
    rw [← h, opcodeOfInstr_operandsOf, List.head?_cons]
  all_goals
    rw [he] at h
    cases h

/-- Settles O7: a rejected record is answered by its status byte alone, an instruction answers once
(`execAt_answersOnce`). -/
theorem everyRecordGetsOneResponse : Obligations.EveryRecordGetsOneResponse := by
  intro s rec rest hport
  cases hdec : decode rec with
  | error why =>
    exact ⟨_, _, [], step_of_reject hport hdec, rfl, rfl, Status.code_toNat_le _, fun _ => .inl rfl⟩
  | ok i =>
    obtain ⟨t, st, fields, hexec, hpend, hresp, hfields⟩ :=
      execAt_answersOnce Config.hardware i { s with pending := rest }
    have hstep : step s = .next t := by
      rw [step_of_record hport, perform_of_ok hdec, exec_eq_execAt, hexec]
    refine ⟨t, st.code, fields, hstep, hpend, hresp, st.code_toNat_le, fun herr => ?_⟩
    rcases hfields with rfl | hnone | ⟨rfl, hzero, hop⟩
    · exact absurd rfl herr
    · exact .inl hnone
    · have hhead := head?_of_decode_ok hdec
      exact .inr ⟨rfl, hzero, hop.imp (fun h => by rw [hhead, h]; rfl) (fun h => by rw [hhead, h]; rfl)⟩

end Sys2Proof.Machine

/-! PROOF. The decimal text of a code (spec/30_encoding.md R91): settles O39. -/

namespace Sys2Proof.Machine

open Sys2Proof

theorem decDigit_toNat {k : Nat} (h : k < 10) : (decDigit k).toNat = 0x30 + k := by
  rw [decDigit, BitVec.toNat_ofNat]
  omega

/-- Every byte of a decimal text is an ASCII digit. -/
theorem isDigit_of_mem_decText {code d : Nat} {b : Byte} (h : b ∈ decText code d) :
    0x30 ≤ b.toNat ∧ b.toNat ≤ 0x39 := by
  induction d with
  | zero => cases h
  | succ d ih =>
    rcases List.mem_cons.mp h with rfl | htail
    · rw [decDigit_toNat (Nat.mod_lt _ (by omega))]
      omega
    · exact ih htail

/-- Reading a decimal text on from any accumulator appends the code's last d digits to it. -/
theorem decText_foldl (code d acc : Nat) :
    (decText code d).foldl (fun acc b => acc * 10 + (b.toNat - 0x30)) acc = acc * 10 ^ d + code % 10 ^ d := by
  induction d generalizing acc with
  | zero => simp [decText, Nat.mod_one]
  | succ d ih =>
    rw [decText, List.foldl_cons, ih, decDigit_toNat (Nat.mod_lt _ (by omega)), Nat.add_sub_cancel_left,
      Nat.mod_pow_succ]
    ring

/-- Settles O39: the number that the text spells is `decText_foldl` from 0, and `code` is its own last d digits. -/
theorem decimalTextIsFixedWidth : Obligations.DecimalTextIsFixedWidth := by
  refine ⟨fun code d => ⟨decText_length code d, fun b hb => isDigit_of_mem_decText hb, fun hcode => ?_⟩, by decide⟩
  rw [decText_foldl, Nat.mod_eq_of_lt hcode, Nat.zero_mul, Nat.zero_add]

end Sys2Proof.Machine

/-! PROOF. The pseudo-instructions (spec/30_encoding.md R93): settles O57. -/

namespace Sys2Proof.Machine

open Sys2Proof

@[simp] theorem feeds_length (bytes : List Byte) (t s : Millis) : (feeds bytes t s).length = bytes.length := by
  induction bytes generalizing t with
  | nil => rfl
  | cons b bytes ih => rw [feeds, List.length_cons, List.length_cons, ih]

/-- FEEDS gives byte k to FEED at t + k*s modulo 2^32. -/
theorem feeds_getElem? {bytes : List Byte} {k : Nat} (h : k < bytes.length) (t s : Millis) :
    (feeds bytes t s)[k]? = some (.feed (byteAt bytes k) (t + BitVec.ofNat 32 k * s)) := by
  induction bytes generalizing t k with
  | nil => cases h
  | cons b bytes ih =>
    cases k with
    | zero => simp [feeds, byteAt]
    | succ k =>
      have htime : t + s + BitVec.ofNat 32 k * s = t + BitVec.ofNat 32 (k + 1) * s := by
        rw [BitVec.ofNat_add, BitVec.add_mul, BitVec.one_mul, BitVec.add_assoc, BitVec.add_comm s]
      rw [feeds, List.getElem?_cons_succ, ih (Nat.lt_of_succ_lt_succ h), htime]
      rfl

theorem fit_of_lt {w n : Nat} (h : n < 2 ^ w) : fit w n = some (BitVec.ofNat w n) := if_pos h

/-- Settles O57: FEEDS by `feeds_getElem?`, its text by `fit_of_lt`; UNLOCK and REPLY are their expansions. -/
theorem pseudoInstructionsExpand : Obligations.PseudoInstructionsExpand := by
  refine ⟨fun bytes t s => ⟨feeds_length bytes t s, fun k hk => feeds_getElem? hk t s⟩,
    fun bytes t _ ht => ?parse, fun _ _ _ _ => rfl, fun _ _ => rfl⟩
  case parse => rw [parseFeeds, fit_of_lt ht, Option.map_some]

end Sys2Proof.Machine

/-! PROOF. The base32 alphabet, the bits that a text and its bytes share, and the three operations over them
(spec/40_base32.md R120 to R129): settles O24, O25, O27, O21, O22 and O23. -/

namespace Sys2Proof.Machine

open Sys2Proof Sys2Proof.Claims

/-! ### The alphabet (R120) -/

theorem symval_of_upper {c : Byte} (hlo : 0x41 ≤ c.toNat) (hhi : c.toNat ≤ 0x5A) :
    symval c = some (BitVec.ofNat 5 (c.toNat - 0x41)) :=
  if_pos ⟨hlo, hhi⟩

theorem symval_of_lower {c : Byte} (hlo : 0x61 ≤ c.toNat) (hhi : c.toNat ≤ 0x7A) :
    symval c = some (BitVec.ofNat 5 (c.toNat - 0x61)) := by
  simp only [symval]
  rw [if_neg (by omega), if_pos ⟨hlo, hhi⟩]

theorem symval_of_digit {c : Byte} (hlo : 0x32 ≤ c.toNat) (hhi : c.toNat ≤ 0x37) :
    symval c = some (BitVec.ofNat 5 (c.toNat - 0x32 + 26)) := by
  simp only [symval]
  rw [if_neg (by omega), if_neg (by omega), if_pos ⟨hlo, hhi⟩]

theorem symval_eq_none {c : Byte} (h : c.toNat < 0x32 ∨ (0x37 < c.toNat ∧ c.toNat < 0x41) ∨
    (0x5A < c.toNat ∧ c.toNat < 0x61) ∨ 0x7A < c.toNat) : symval c = none := by
  simp only [symval]
  rw [if_neg (by omega), if_neg (by omega), if_neg (by omega)]

theorem alpha_toNat (v : Symbol) :
    (alpha v).toNat = if v.toNat ≤ 25 then 0x41 + v.toNat else 0x32 + (v.toNat - 26) := by
  have hv := v.isLt
  unfold alpha
  split_ifs <;> rw [BitVec.toNat_ofNat] <;> omega

/-- The letter or digit of a value has that value. -/
theorem symval_alpha (v : Symbol) : symval (alpha v) = some v := by
  have hv := v.isLt
  have hbyte := alpha_toNat v
  split_ifs at hbyte with hletter
  · rw [symval_of_upper (by omega) (by omega), hbyte, Nat.add_sub_cancel_left, BitVec.ofNat_toNat,
      BitVec.setWidth_eq]
  · rw [symval_of_digit (by omega) (by omega), hbyte, Nat.add_sub_cancel_left, Nat.sub_add_cancel (by omega),
      BitVec.ofNat_toNat, BitVec.setWidth_eq]

/-- Settles O24: one lemma for each range of bytes, and the two that say what `alpha` writes. -/
theorem symbolValuesFollowAlphabet : Obligations.SymbolValuesFollowAlphabet :=
  ⟨fun _ => symval_of_upper, fun _ => symval_of_lower, fun _ => symval_of_digit, fun _ => symval_eq_none,
    fun v => ⟨symval_alpha v, alpha_toNat v⟩⟩

/-! ### Bit strings, most significant bit first -/

/-- In a string of pieces of one length m, place m*i + r is place r of piece i. -/
theorem getElem?_flatMap_of_length {α β : Type} {f : α → List β} {m : Nat} (hf : ∀ a, (f a).length = m)
    (l : List α) (i : Nat) {r : Nat} (hr : r < m) :
    (l.flatMap f)[m * i + r]? = l[i]?.bind (fun a => (f a)[r]?) := by
  induction l generalizing i with
  | nil => simp
  | cons a l ih =>
    rw [List.flatMap_cons]
    cases i with
    | zero => simp [List.getElem?_append_left, hf, hr]
    | succ i =>
      have hplace : m * (i + 1) + r - m = m * i + r := by rw [Nat.mul_succ]; omega
      rw [List.getElem?_append_right (by rw [hf, Nat.mul_succ]; omega), hf, hplace, ih, List.getElem?_cons_succ]

theorem byteBits_getElem? (b : Byte) : ∀ k < 8, (byteBits b)[k]? = some (b.getLsbD (7 - k))
  | 0, _ | 1, _ | 2, _ | 3, _ | 4, _ | 5, _ | 6, _ | 7, _ => rfl

theorem symbolBits_getElem? (v : Symbol) : ∀ k < 5, (symbolBits v)[k]? = some (v.getLsbD (4 - k))
  | 0, _ | 1, _ | 2, _ | 3, _ | 4, _ => rfl

/-- Bit n of a byte string stands in byte n/8; past the end both sides are 0. -/
theorem flatMap_byteBits_getD (b : List Byte) (n : Nat) :
    (b.flatMap byteBits).getD n false = (byteAt b (n / 8)).getLsbD (7 - n % 8) := by
  have hbit := getElem?_flatMap_of_length byteBits_length b (n / 8) (Nat.mod_lt n (by omega))
  rw [Nat.div_add_mod] at hbit
  rw [List.getD_eq_getElem?_getD, hbit, byteAt, List.getD_eq_getElem?_getD]
  cases b[n / 8]? with
  | none => simp
  | some x => simp [byteBits_getElem? x _ (Nat.mod_lt n (by omega))]

/-- Bit n of a string of symbol values stands in value n/5. -/
theorem flatMap_symbolBits_getD (vs : List Symbol) (n : Nat) :
    (vs.flatMap symbolBits).getD n false = (vs.getD (n / 5) 0).getLsbD (4 - n % 5) := by
  have hbit := getElem?_flatMap_of_length symbolBits_length vs (n / 5) (Nat.mod_lt n (by omega))
  rw [Nat.div_add_mod] at hbit
  rw [List.getD_eq_getElem?_getD, hbit, List.getD_eq_getElem?_getD]
  cases vs[n / 5]? with
  | none => simp
  | some x => simp [symbolBits_getElem? x _ (Nat.mod_lt n (by omega))]

theorem symbolBits_bitsVal (a b c d e : Bool) :
    symbolBits (BitVec.ofNat 5 (bitsVal [a, b, c, d, e])) = [a, b, c, d, e] := by
  decide +revert

theorem byteBits_bitsVal (a b c d e f g h : Bool) :
    byteBits (BitVec.ofNat 8 (bitsVal [a, b, c, d, e, f, g, h])) = [a, b, c, d, e, f, g, h] := by
  decide +revert

/-- The symbols of a bit string spell it from its start on, the bits left over excepted. -/
theorem flatMap_symbolBits_symbolGroups_prefix (bits : List Bool) :
    (symbolGroups bits).flatMap symbolBits <+: bits := by
  induction bits using symbolGroups.induct with
  | case1 a b c d e rest ih =>
    rw [symbolGroups, List.flatMap_cons, symbolBits_bitsVal]
    exact (List.prefix_append_right_inj [a, b, c, d, e]).mpr ih
  | case2 bits hshort =>
    rw [symbolGroups.eq_2 bits hshort]
    exact List.nil_prefix

/-- The bytes of a bit string spell it from its start on, the bits left over excepted. -/
theorem flatMap_byteBits_byteGroups_prefix (bits : List Bool) :
    (byteGroups bits).flatMap byteBits <+: bits := by
  induction bits using byteGroups.induct with
  | case1 a b c d e f g h rest ih =>
    rw [byteGroups, List.flatMap_cons, byteBits_bitsVal]
    exact (List.prefix_append_right_inj [a, b, c, d, e, f, g, h]).mpr ih
  | case2 bits hshort =>
    rw [byteGroups.eq_2 bits hshort]
    exact List.nil_prefix

theorem getD_of_prefix {α : Type} {l bits : List α} (h : l <+: bits) {n : Nat} (hn : n < l.length) (d : α) :
    l.getD n d = bits.getD n d := by
  obtain ⟨rest, rfl⟩ := h
  exact (List.getD_append l rest d n hn).symm

/-- Bit k of symbol j of a bit string is bit 5j+k of the string. -/
theorem symbolGroups_getLsbD {bits : List Bool} {j k : Nat} (hj : j < (symbolGroups bits).length) (hk : k < 5) :
    ((symbolGroups bits).getD j 0).getLsbD (4 - k) = bits.getD (5 * j + k) false := by
  have hin : 5 * j + k < ((symbolGroups bits).flatMap symbolBits).length := by
    rw [flatMap_symbolBits_length]
    omega
  have hj' : (5 * j + k) / 5 = j := by omega
  have hk' : (5 * j + k) % 5 = k := by omega
  rw [← getD_of_prefix (flatMap_symbolBits_symbolGroups_prefix bits) hin, flatMap_symbolBits_getD, hj', hk']

/-- Bit q of byte i of a bit string is bit 8i+q of the string. -/
theorem byteGroups_getLsbD {bits : List Bool} {i q : Nat} (hi : i < (byteGroups bits).length) (hq : q < 8) :
    (byteAt (byteGroups bits) i).getLsbD (7 - q) = bits.getD (8 * i + q) false := by
  have hin : 8 * i + q < ((byteGroups bits).flatMap byteBits).length := by
    rw [flatMap_byteBits_length]
    omega
  have hi' : (8 * i + q) / 8 = i := by omega
  have hq' : (8 * i + q) % 8 = q := by omega
  rw [← getD_of_prefix (flatMap_byteBits_byteGroups_prefix bits) hin, flatMap_byteBits_getD, hi', hq']

/-! ### Encoding (R121) -/

/-- The bits that `b32encode` groups: those of the bytes, then zero fill bits to a whole symbol. -/
def filledBits (b : List Byte) : List Bool :=
  b.flatMap byteBits ++ List.replicate (5 * symbolCount b.length - 8 * b.length) false

/-- A text is the symbols of the filled bits, then its padding. -/
theorem b32encode_eq (b : List Byte) : b32encode b =
    (symbolGroups (filledBits b)).map alpha ++ List.replicate ((8 - symbolCount b.length % 8) % 8) padByte :=
  rfl

theorem symbolGroups_filledBits_length (b : List Byte) :
    (symbolGroups (filledBits b)).length = symbolCount b.length := by
  rw [symbolGroups_length, filledBits, List.length_append, flatMap_byteBits_length, List.length_replicate,
    symbolCount]
  omega

/-- Zero fill is what a read past the last byte gives. -/
theorem filledBits_getD (b : List Byte) (n : Nat) :
    (filledBits b).getD n false = (byteAt b (n / 8)).getLsbD (7 - n % 8) := by
  rw [← flatMap_byteBits_getD, filledBits]
  rcases Nat.lt_or_ge n (b.flatMap byteBits).length with hin | hpast
  · exact List.getD_append _ _ _ _ hin
  · rw [List.getD_append_right _ _ _ _ hpast, List.getD_eq_default _ _ hpast]
    exact List.getElem?_getD_replicate_default_eq _ _ _

theorem b32encode_length (b : List Byte) : (b32encode b).length = 8 * ((b.length + 4) / 5) := by
  rw [b32encode_eq, List.length_append, List.length_map, symbolGroups_filledBits_length, List.length_replicate,
    symbolCount]
  omega

theorem byteAt_b32encode_of_lt {b : List Byte} {j : Nat} (hj : j < symbolCount b.length) :
    byteAt (b32encode b) j = alpha ((symbolGroups (filledBits b)).getD j 0) := by
  rw [← symbolGroups_filledBits_length] at hj
  rw [b32encode_eq, byteAt_append_left (by rwa [List.length_map]), byteAt,
    List.getD_eq_getElem _ _ (by rwa [List.length_map]), List.getElem_map, List.getD_eq_getElem _ _ hj]

theorem byteAt_b32encode_of_ge {b : List Byte} {j : Nat} (hj : symbolCount b.length ≤ j)
    (hin : j < (b32encode b).length) : byteAt (b32encode b) j = padByte := by
  have hsymbols : ((symbolGroups (filledBits b)).map alpha).length = symbolCount b.length := by
    rw [List.length_map, symbolGroups_filledBits_length]
  rw [b32encode_eq, List.length_append, hsymbols, List.length_replicate] at hin
  rw [b32encode_eq, byteAt, List.getD_append_right _ _ _ _ (by omega), hsymbols]
  exact List.getD_replicate _ (by omega)

/-- Settles O25: symbol j is the group of bits 5j to 5j+4 (`symbolGroups_getLsbD`) of the filled bits, and bit n of
these is bit n of the bytes (`filledBits_getD`). -/
theorem encoderWritesMsbFirstSymbols : Obligations.EncoderWritesMsbFirstSymbols := by
  refine fun b => ⟨b32encode_length b, fun j hj => ⟨_, byteAt_b32encode_of_lt hj, fun k hk => ?bits⟩,
    fun j => byteAt_b32encode_of_ge⟩
  case bits =>
    rw [symbolGroups_getLsbD (by rwa [symbolGroups_filledBits_length]) hk, filledBits_getD]

/-! ### Decoding (R123, R124) -/

/-- The bytes of a text that decoding reads: those that are not `=` (R123). -/
def withoutPadding (t : List Byte) : List Byte := t.filter (fun c => decide (c ≠ padByte))

/-- The two ways a decode ends: a byte has no value, or the bits of the values are grouped by eight. -/
theorem b32decode_cases (t : List Byte) :
    (b32decode t = none ∧ ∃ c ∈ withoutPadding t, symval c = none) ∨
    (∃ vs : List Symbol, b32decode t = some (byteGroups (vs.flatMap symbolBits)) ∧
      (withoutPadding t).map symval = vs.map some) := by
  rcases symvals_cases (withoutPadding t) with ⟨hnone, hbad⟩ | ⟨vs, hsome, -, hvals⟩
  · rw [withoutPadding] at hnone
    exact .inl ⟨by simp only [b32decode, hnone], hbad⟩
  · rw [withoutPadding] at hsome
    exact .inr ⟨vs, by simp only [b32decode, hsome], hvals⟩

theorem b32decode_eq_none_iff (t : List Byte) :
    b32decode t = none ↔ ∃ c ∈ withoutPadding t, symval c = none := by
  rcases b32decode_cases t with ⟨hnone, hbad⟩ | ⟨vs, hsome, hvals⟩
  · exact iff_of_true hnone hbad
  · refine iff_of_false (by rw [hsome]; exact Option.some_ne_none _) fun ⟨c, hc, hval⟩ => ?_
    have hmem : symval c ∈ vs.map some := hvals ▸ List.mem_map_of_mem hc
    obtain ⟨v, -, hv⟩ := List.mem_map.mp hmem
    exact Option.some_ne_none v (hv.trans hval)

/-- One byte that is neither `=` nor a symbol makes the whole text fail. -/
theorem b32decode_eq_none_of_bad {t : List Byte} (h : ∃ c ∈ t, c ≠ 0x3D ∧ symval c = none) :
    b32decode t = none := by
  obtain ⟨c, hc, hpad, hval⟩ := h
  exact (b32decode_eq_none_iff t).mpr ⟨c, List.mem_filter.mpr ⟨hc, decide_eq_true hpad⟩, hval⟩

/-- A text that decodes has one value for each byte that is not `=`, and gives the bytes of their bits. -/
theorem b32decode_eq_some {t out : List Byte} (h : b32decode t = some out) :
    ∃ vs : List Symbol, out = byteGroups (vs.flatMap symbolBits) ∧ vs.length = (withoutPadding t).length ∧
      (withoutPadding t).map symval = vs.map some := by
  rcases b32decode_cases t with ⟨hnone, -⟩ | ⟨vs, hsome, hvals⟩
  · cases hnone.symm.trans h
  · exact ⟨vs, Option.some.inj (h.symm.trans hsome), by simpa using (congrArg List.length hvals).symm, hvals⟩

/-- The value of byte m is place m of the values. -/
theorem symval_byteAt {u : List Byte} {vs : List Symbol} (h : u.map symval = vs.map some) {m : Nat}
    (hm : m < vs.length) : symval (byteAt u m) = some (vs.getD m 0) := by
  have hlen : u.length = vs.length := by simpa using congrArg List.length h
  have hu : m < u.length := by omega
  have hplace : (u.map symval)[m]? = (vs.map some)[m]? := by rw [h]
  rw [List.getElem?_map, List.getElem?_map, List.getElem?_eq_getElem hu, List.getElem?_eq_getElem hm] at hplace
  rw [byteAt, List.getD_eq_getElem _ _ hu, List.getD_eq_getElem _ _ hm]
  exact Option.some.inj hplace

theorem b32decode_length {t out : List Byte} (h : b32decode t = some out) :
    out.length = 5 * (withoutPadding t).length / 8 := by
  obtain ⟨vs, rfl, hlen, -⟩ := b32decode_eq_some h
  rw [byteGroups_length, flatMap_symbolBits_length, hlen]

/-- Bit q of byte i stands in the value of the byte that holds bit 8i+q of the text. -/
theorem b32decode_getLsbD {t out : List Byte} (h : b32decode t = some out) {i q : Nat} (hi : i < out.length)
    (hq : q < 8) : ∃ v : Symbol, symval (byteAt (withoutPadding t) ((8 * i + q) / 5)) = some v ∧
      (byteAt out i).getLsbD (7 - q) = v.getLsbD (4 - (8 * i + q) % 5) := by
  have hbytes := b32decode_length h
  obtain ⟨vs, rfl, hlen, hvals⟩ := b32decode_eq_some h
  exact ⟨_, symval_byteAt hvals (by omega), by rw [byteGroups_getLsbD hi hq, flatMap_symbolBits_getD]⟩

/-- Settles O27: a decode fails by `b32decode_eq_none_iff`; else its bytes are counted by `b32decode_length` and
given bit by bit by `b32decode_getLsbD`. -/
theorem decoderReadsMsbFirstBytes : Obligations.DecoderReadsMsbFirstBytes := by
  rintro t _ rfl
  exact ⟨b32decode_eq_none_iff t, fun _ hout => ⟨b32decode_length hout, fun _ _ => b32decode_getLsbD hout⟩⟩

/-! ### The operations (R127 to R129) -/

/-- O5 for the records of one opcode, whose layout gives `recordLength` (R82). -/
theorem rejectsWrongLength_byte (op : Opcode) :
    rejectsWrongLength op.byte (recordLength Config.hardware op) := by
  obtain ⟨-, hwrong, -⟩ := malformedRecordsEndInFormatError
  exact fun s body rest hport => hwrong s _ rest _ hport (layoutLength_byte_cons op body)

theorem exec_b32enc_of_le {data : List Byte} (h : data.length ≤ 160) (s : State) : exec (.b32enc data) s =
    .next (answered s (0x00 :: (beBytes 2 (b32encode data).length ++ b32encode data))) :=
  if_neg (Nat.not_lt.mpr h)

theorem exec_b32enc_of_gt {data : List Byte} (h : 160 < data.length) (s : State) :
    exec (.b32enc data) s = .next (answered s [0x03]) :=
  if_pos h

/-- Settles O21: the two ways by the length of the data, and `b32encode_length`. -/
theorem b32encAnswersText : Obligations.B32encAnswersText := by
  refine ⟨fun data s hlen => ?text, fun data s => (exec_b32enc_of_gt · s), rejectsWrongLength_byte .b32enc⟩
  case text => rw [exec_b32enc_of_le hlen, b32encode_length]

/-- What B32DEC and LDSEC decode to fits the secret (R26, R128). -/
theorem b32decode_length_le_secretMax {text out : List Byte} (hlen : text.length ≤ 256)
    (h : b32decode text = some out) : out.length ≤ 160 := by
  have hout := b32decode_length_le h
  omega

theorem exec_b32dec_of_some {text out : List Byte} (hlen : text.length ≤ 256) (h : b32decode text = some out)
    (s : State) : exec (.b32dec text) s = .next (answered s (0x00 :: (beBytes 2 out.length ++ out))) := by
  refine (if_neg (Nat.not_lt.mpr hlen)).trans ?_
  rw [h]
  rfl

theorem exec_b32dec_of_none {text : List Byte} (hlen : text.length ≤ 256) (h : b32decode text = none)
    (s : State) : exec (.b32dec text) s = .next (answered s [0x05, 0x00, 0x00]) := by
  refine (if_neg (Nat.not_lt.mpr hlen)).trans ?_
  rw [h]
  rfl

theorem exec_b32dec_of_gt {text : List Byte} (h : 256 < text.length) (s : State) :
    exec (.b32dec text) s = .next (answered s [0x03]) :=
  if_pos h

/-- Settles O22: one lemma for each way the text can be. -/
theorem b32decAnswersBytes : Obligations.B32decAnswersBytes :=
  ⟨fun _ _ s hlen hout => ⟨b32decode_length_le_secretMax hlen hout, exec_b32dec_of_some hlen hout s⟩,
    fun _ s hlen hbad => exec_b32dec_of_none hlen (b32decode_eq_none_of_bad hbad) s,
    fun _ s hlen => exec_b32dec_of_gt hlen s, rejectsWrongLength_byte .b32dec⟩

theorem exec_ldsec_of_some {text out : List Byte} (hlen : text.length ≤ 256) (h : b32decode text = some out)
    (s : State) : exec (.ldsec text) s =
      .next (answered (s.setSecret out) [0x00, if out = [] then 0x00 else 0x01, BitVec.ofNat 8 out.length]) := by
  refine (if_neg (Nat.not_lt.mpr hlen)).trans ?_
  rw [h]
  cases out <;> rfl

theorem exec_ldsec_of_none {text : List Byte} (hlen : text.length ≤ 256) (h : b32decode text = none)
    (s : State) : exec (.ldsec text) s = .next (answered (s.setSecret []) [0x05, 0x00, 0x00]) := by
  refine (if_neg (Nat.not_lt.mpr hlen)).trans ?_
  rw [h]
  rfl

theorem exec_ldsec_of_gt {text : List Byte} (h : 256 < text.length) (s : State) :
    exec (.ldsec text) s = .next (answered s [0x03]) :=
  if_pos h

/-- Settles O23: one lemma for each way the text can be. -/
theorem ldsecReplacesSecret : Obligations.LdsecReplacesSecret :=
  ⟨fun _ _ s hlen hout => ⟨b32decode_length_le_secretMax hlen hout, exec_ldsec_of_some hlen hout s⟩,
    fun _ s hlen hbad => exec_ldsec_of_none hlen (b32decode_eq_none_of_bad hbad) s,
    fun _ s hlen => exec_ldsec_of_gt hlen s, rejectsWrongLength_byte .ldsec⟩

end Sys2Proof.Machine

/-! PROOF. SHA-1: the padding and the words, the schedule, the rounds and the blocks (spec/41_hotp_totp.md R150 to
R155): settles O31, O32 and O33. -/

namespace Sys2Proof.Machine

open Sys2Proof Sys2Proof.Claims

/-! ### Slices byte by byte -/

/-- A slice that begins inside the byte string begins with the byte there. -/
theorem slice_succ {s : List Byte} {i : Nat} (h : i < s.length) (n : Nat) :
    slice s i (n + 1) = byteAt s i :: slice s (i + 1) n := by
  rw [slice, List.drop_eq_getElem_cons h, List.take_succ_cons, byteAt, List.getD_eq_getElem _ _ h, slice]

/-- Dropping n bytes first moves a slice by n. -/
theorem slice_drop (s : List Byte) (n i k : Nat) : slice (s.drop n) i k = slice s (n + i) k := by
  rw [slice, List.drop_drop, slice]

/-- The number of four bytes, each at its weight. -/
theorem fromBE_slice_four {s : List Byte} {i : Nat} (h : i + 4 ≤ s.length) :
    fromBE (slice s i 4) = (byteAt s i).toNat * 2 ^ 24 + (byteAt s (i + 1)).toNat * 2 ^ 16 +
      (byteAt s (i + 2)).toNat * 2 ^ 8 + (byteAt s (i + 3)).toNat := by
  have hbytes : slice s i 4 = [byteAt s i, byteAt s (i + 1), byteAt s (i + 2), byteAt s (i + 3)] := by
    rw [slice_succ (by omega), slice_succ (by omega), slice_succ (by omega), slice_succ (by omega), slice,
      List.take_zero]
  rw [hbytes]
  simp [fromBE_cons, Nat.add_assoc]

/-! ### The padding and the words (R150) -/

theorem sha1ZeroCount_mod (l : Nat) : (l + 1 + sha1ZeroCount l) % 64 = 56 := by
  unfold sha1ZeroCount
  omega

theorem sha1ZeroCount_least {l k : Nat} (h : k < sha1ZeroCount l) : (l + 1 + k) % 64 ≠ 56 := by
  unfold sha1ZeroCount at h
  omega

theorem sha1Pad_length (m : List Byte) : (sha1Pad m).length = m.length + 1 + sha1ZeroCount m.length + 8 := by
  simp [sha1Pad]
  omega

/-- The padded message is whole blocks of 64 bytes. -/
theorem sha1Pad_length_mod (m : List Byte) : (sha1Pad m).length % 64 = 0 := by
  have hzeros := sha1ZeroCount_mod m.length
  rw [sha1Pad_length]
  omega

/-- Bytes that are not a word and a rest are fewer than four. -/
theorem length_lt_four {s : List Byte} (h : ∀ b0 b1 b2 b3 rest, s ≠ b0 :: b1 :: b2 :: b3 :: rest) :
    s.length < 4 := by
  rcases s with _ | ⟨b0, _ | ⟨b1, _ | ⟨b2, _ | ⟨b3, rest⟩⟩⟩⟩
  case cons.cons.cons.cons => exact absurd rfl (h b0 b1 b2 b3 rest)
  all_goals simp

theorem wordsOf_length (s : List Byte) : (wordsOf s).length = s.length / 4 := by
  induction s using wordsOf.induct with
  | case1 b0 b1 b2 b3 rest ih =>
    simp only [wordsOf, List.length_cons, ih]
    omega
  | case2 s hshort =>
    rw [wordsOf, List.length_nil, Nat.div_eq_of_lt (length_lt_four hshort)]
    exact hshort

/-- Word j is the number of bytes 4j to 4j + 3. -/
theorem wordsOf_getD {s : List Byte} {j : Nat} (h : 4 * j + 4 ≤ s.length) :
    (wordsOf s).getD j 0 = BitVec.ofNat 32 (fromBE (slice s (4 * j) 4)) := by
  induction s using wordsOf.induct generalizing j with
  | case1 b0 b1 b2 b3 rest ih =>
    cases j with
    | zero => rfl
    | succ j =>
      have hrest : slice (b0 :: b1 :: b2 :: b3 :: rest) (4 * (j + 1)) 4 = slice rest (4 * j) 4 := by
        rw [show 4 * (j + 1) = 4 + 4 * j by omega, ← slice_drop]
        rfl
      rw [wordsOf, List.getD_cons_succ, hrest]
      apply ih
      simp only [List.length_cons] at h
      omega
  | case2 s hshort =>
    have hlen := length_lt_four hshort
    omega

/-- Settles O31: the k of the model is the least one, and the words are read off the whole blocks. -/
theorem sha1PadsToWholeBlocks : Obligations.Sha1PadsToWholeBlocks := fun m =>
  ⟨sha1ZeroCount m.length, rfl, sha1ZeroCount_mod m.length, fun _ => sha1ZeroCount_least, sha1Pad_length_mod m,
    wordsOf_length _, fun _ => wordsOf_getD⟩

/-! ### The message schedule (R152) -/

/-- From word 16 on, every word of the sequence is the one R152's recurrence gives. -/
def FollowsRecurrence (w : List Word32) : Prop :=
  ∀ t, 16 ≤ t → t < w.length →
    w.getD t 0 = rotl 1 (w.getD (t - 3) 0 ^^^ w.getD (t - 8) 0 ^^^ w.getD (t - 14) 0 ^^^ w.getD (t - 16) 0)

/-- The next word, in the order of the message. -/
theorem scheduleNext_reverse {w : List Word32} (h : 16 ≤ w.length) :
    scheduleNext w.reverse = rotl 1 (w.getD (w.length - 3) 0 ^^^ w.getD (w.length - 8) 0 ^^^
      w.getD (w.length - 14) 0 ^^^ w.getD (w.length - 16) 0) := by
  rw [scheduleNext, List.getD_reverse _ (by omega), List.getD_reverse _ (by omega), List.getD_reverse _ (by omega),
    List.getD_reverse _ (by omega)]
  rfl

/-- The recurrence goes on holding when the next word is appended. -/
theorem FollowsRecurrence.append_next {w : List Word32} (hlen : 16 ≤ w.length) (hw : FollowsRecurrence w) :
    FollowsRecurrence (w ++ [scheduleNext w.reverse]) := by
  intro t hlo hhi
  rw [List.length_append, List.length_singleton] at hhi
  rw [List.getD_append _ _ _ (t - 3) (by omega), List.getD_append _ _ _ (t - 8) (by omega),
    List.getD_append _ _ _ (t - 14) (by omega), List.getD_append _ _ _ (t - 16) (by omega)]
  rcases Nat.lt_or_eq_of_le (Nat.le_of_lt_succ hhi) with hold | rfl
  · rw [List.getD_append _ _ _ t hold, hw t hlo hold]
  · rw [List.getD_append_right _ _ _ _ le_rfl, Nat.sub_self, List.getD_cons_zero, scheduleNext_reverse hlen]

@[simp] theorem scheduleFrom_length (k : Nat) (ws : List Word32) : (scheduleFrom k ws).length = ws.length + k := by
  induction k generalizing ws with
  | zero => rfl
  | succ k ih =>
    rw [scheduleFrom, ih, List.length_cons]
    omega

/-- The words given stand first in the schedule (latest first: at its end). -/
theorem suffix_scheduleFrom (k : Nat) (ws : List Word32) : ws <:+ scheduleFrom k ws := by
  induction k generalizing ws with
  | zero => exact List.suffix_rfl
  | succ k ih => exact (List.suffix_cons _ _).trans (ih _)

theorem scheduleFrom_followsRecurrence (k : Nat) {ws : List Word32} (hlen : 16 ≤ ws.length)
    (hws : FollowsRecurrence ws.reverse) : FollowsRecurrence (scheduleFrom k ws).reverse := by
  induction k generalizing ws with
  | zero => exact hws
  | succ k ih =>
    refine ih (by rw [List.length_cons]; omega) ?_
    have hnext := hws.append_next (by rwa [List.length_reverse])
    rwa [List.reverse_reverse, ← List.reverse_cons] at hnext

theorem schedule_length (block : List Word32) : (schedule block).length = block.length + 64 := by
  simp [schedule]

/-- The block's own words come first. -/
theorem block_isPrefix_schedule (block : List Word32) : block <+: schedule block := by
  have hsuffix := suffix_scheduleFrom 64 block.reverse
  rwa [← List.reverse_prefix, List.reverse_reverse] at hsuffix

/-- Settles O32: the block satisfies the recurrence vacuously, and each of the 64 words appended keeps it. -/
theorem scheduleFollowsRecurrence : Obligations.ScheduleFollowsRecurrence := by
  intro block hblock
  have hlen : (schedule block).length = 80 := by rw [schedule_length, hblock]
  have hstart : FollowsRecurrence block.reverse.reverse := fun t hlo hhi => by
    rw [List.reverse_reverse] at hhi
    omega
  have hrec : FollowsRecurrence (schedule block) :=
    scheduleFrom_followsRecurrence 64 (by rw [List.length_reverse]; omega) hstart
  exact ⟨hlen, fun t ht => (getD_of_prefix (block_isPrefix_schedule block) (by omega) 0).symm,
    fun t hlo hhi => hrec t hlo (by omega)⟩

/-! ### The rounds and the blocks (R153, R154) -/

/-- Which row of R153's table round t is in. -/
theorem roundRow_cases {t : Nat} (h : t < 80) :
    (t / 20 = 0 ∧ t < 20) ∨ (t / 20 = 1 ∧ 20 ≤ t ∧ t < 40) ∨ (t / 20 = 2 ∧ 40 ≤ t ∧ t < 60) ∨
      (t / 20 = 3 ∧ 60 ≤ t) := by
  omega

theorem sha1F_eq_roundFunction {t : Nat} (h : t < 80) (x y z : Word32) : sha1F t x y z = roundFunction t x y z := by
  rcases roundRow_cases h with ⟨hrow, ht⟩ | ⟨hrow, hlo, ht⟩ | ⟨hrow, hlo, ht⟩ | ⟨hrow, hlo⟩
  · simp only [roundFunction, hrow, sha1F, if_pos ht]
  · simp only [roundFunction, hrow, sha1F, if_pos ht, if_neg (show ¬t < 20 by omega)]
  · simp only [roundFunction, hrow, sha1F, if_pos ht, if_neg (show ¬t < 20 by omega), if_neg (show ¬t < 40 by omega)]
  · simp only [roundFunction, hrow, sha1F, if_neg (show ¬t < 20 by omega), if_neg (show ¬t < 40 by omega),
      if_neg (show ¬t < 60 by omega)]

theorem sha1K_eq_roundConstant {t : Nat} (h : t < 80) : sha1K t = roundConstant t := by
  rcases roundRow_cases h with ⟨hrow, ht⟩ | ⟨hrow, hlo, ht⟩ | ⟨hrow, hlo, ht⟩ | ⟨hrow, hlo⟩
  · rw [roundConstant, hrow, sha1K, if_pos ht]
    rfl
  · rw [roundConstant, hrow, sha1K, if_neg (by omega), if_pos ht]
    rfl
  · rw [roundConstant, hrow, sha1K, if_neg (by omega), if_neg (by omega), if_pos ht]
    rfl
  · rw [roundConstant, hrow, sha1K, if_neg (by omega), if_neg (by omega), if_neg (by omega)]
    rfl

/-- A round with its word at hand is the round that takes the word from the schedule. -/
theorem sha1Round_eq_roundOf {t : Nat} (h : t < 80) (w : List Word32) (r : Sha1Regs) :
    sha1Round t (w.getD t 0) r = roundOf w r t := by
  rw [sha1Round, sha1F_eq_roundFunction h, sha1K_eq_roundConstant h]
  rfl

/-- The rounds over the words after `pre` are the indexed rounds over the whole sequence, from there on. -/
theorem sha1Rounds_eq_foldl (pre ws : List Word32) (r : Sha1Regs) (h : pre.length + ws.length ≤ 80) :
    sha1Rounds pre.length ws r = (List.range' pre.length ws.length).foldl (roundOf (pre ++ ws)) r := by
  induction ws generalizing pre r with
  | nil => rfl
  | cons w ws ih =>
    rw [List.length_cons] at h
    have hword : (pre ++ w :: ws).getD pre.length 0 = w := by
      rw [List.getD_append_right _ _ _ _ le_rfl, Nat.sub_self, List.getD_cons_zero]
    have hround : sha1Round pre.length w r = roundOf (pre ++ w :: ws) r pre.length := by
      rw [← sha1Round_eq_roundOf (by omega), hword]
    have hrest := ih (pre ++ [w]) (sha1Round pre.length w r) (by
      rw [List.length_append, List.length_singleton]
      omega)
    rw [List.length_append, List.length_singleton, List.append_assoc, List.singleton_append] at hrest
    rw [sha1Rounds, hrest, List.length_cons, List.range'_succ, List.foldl_cons, hround]

/-- The compression's eighty rounds, as an indexed loop over the schedule. -/
theorem sha1Rounds_schedule {block : List Word32} (h : block.length = 16) (r : Sha1Regs) :
    sha1Rounds 0 (schedule block) r = (List.range 80).foldl (roundOf (schedule block)) r := by
  have hlen : (schedule block).length = 80 := by rw [schedule_length, h]
  have hrounds := sha1Rounds_eq_foldl [] (schedule block) r (by rw [hlen, List.length_nil])
  rwa [hlen, List.length_nil, ← List.range_eq_range', List.nil_append] at hrounds

/-- The loop over the blocks is the fold over them, block i being words 16i to 16i + 15. -/
theorem sha1Blocks_eq_foldl (n : Nat) (ws : List Word32) (h : Sha1Regs) :
    sha1Blocks n ws h = ((List.range n).map (fun i => (ws.drop (16 * i)).take 16)).foldl sha1Compress h := by
  induction n generalizing ws h with
  | zero => rfl
  | succ n ih =>
    have hshift : (fun i => ((ws.drop 16).drop (16 * i)).take 16) =
        (fun i => (ws.drop (16 * i)).take 16) ∘ Nat.succ := by
      funext i
      rw [List.drop_drop, Nat.add_comm, ← Nat.mul_succ]
      rfl
    rw [sha1Blocks, ih, hshift, ← List.map_map, List.range_succ_eq_map, List.map_cons, List.foldl_cons]
    rfl

theorem sha1_eq_digest_hashOfBlocks (m : List Byte) : sha1 m = sha1Digest (hashOfBlocks (sha1Pad m)) :=
  congrArg sha1Digest (sha1Blocks_eq_foldl _ _ _)

/-- The check value of the empty message (spec/95_test_vectors.md section 2.2). -/
theorem fromBE_sha1_nil : fromBE (sha1 []) = 0xda39a3ee5e6b4b0d3255bfef95601890afd80709 := by decide +kernel

/-- The check value of "abc" (spec/95_test_vectors.md section 2.2). -/
theorem fromBE_sha1_abc : fromBE (sha1 [0x61, 0x62, 0x63]) = 0xa9993e364706816aba3e25717850c26c9cd0d89d := by
  decide +kernel

/-- Settles O33: the rounds by `sha1Rounds_schedule`, the blocks by `sha1_eq_digest_hashOfBlocks`. -/
theorem compressionIsEightyRounds : Obligations.CompressionIsEightyRounds := by
  refine ⟨fun h block hblock => ?compression, fun m h hh => ?digest, fromBE_sha1_nil, fromBE_sha1_abc⟩
  case compression =>
    rw [sha1Compress, sha1Rounds_schedule hblock]
    rfl
  case digest =>
    subst hh
    exact ⟨sha1_eq_digest_hashOfBlocks m, sha1_length m⟩

end Sys2Proof.Machine

/-! PROOF. HMAC-SHA1, the truncation and the code (spec/41_hotp_totp.md R156 to R160): settles O34, O35, O36 and
O37. -/

namespace Sys2Proof.Machine

open Sys2Proof

/-! ### The key and the two hashes (R156, R157) -/

theorem hmacKey_of_gt {k : List Byte} (h : 64 < k.length) : hmacKey k = sha1 k ++ List.replicate 44 0 := if_pos h

theorem hmacKey_of_le {k : List Byte} (h : k.length ≤ 64) : hmacKey k = k ++ List.replicate (64 - k.length) 0 :=
  if_neg (Nat.not_lt.mpr h)

@[simp] theorem hmacKey_length (k : List Byte) : (hmacKey k).length = 64 := by
  rcases Nat.lt_or_ge 64 k.length with hlong | hshort
  · rw [hmacKey_of_gt hlong, List.length_append, sha1_length, List.length_replicate]
  · rw [hmacKey_of_le hshort, List.length_append, List.length_replicate]
    omega

/-- A long key and its digest are prepared alike. -/
theorem hmacKey_sha1 {k : List Byte} (h : 64 < k.length) : hmacKey (sha1 k) = hmacKey k := by
  rw [hmacKey_of_gt h, hmacKey_of_le (by rw [sha1_length]; omega), sha1_length]

/-- Zero bytes after a short key are the ones its preparation appends. -/
theorem hmacKey_append_zeros {k : List Byte} {z : Nat} (h : k.length + z ≤ 64) :
    hmacKey (k ++ List.replicate z 0) = hmacKey k := by
  have hlen : (k ++ List.replicate z (0 : Byte)).length = k.length + z := by simp
  have hzeros : z + (64 - (k.length + z)) = 64 - k.length := by omega
  rw [hmacKey_of_le (by omega), hmacKey_of_le (by omega), hlen, List.append_assoc,
    List.replicate_append_replicate, hzeros]

/-- The key enters HMAC only as prepared. -/
theorem hmacSha1_congr_key {k k' : List Byte} (h : hmacKey k = hmacKey k') (m : List Byte) :
    hmacSha1 k m = hmacSha1 k' m := by
  rw [hmacSha1, h, hmacSha1]

/-- Settles O34: both branches of the preparation, and that HMAC sees only the prepared key. -/
theorem hmacPreparesKey : Obligations.HmacPreparesKey :=
  ⟨hmacKey_length, fun _ => hmacKey_of_gt, fun _ => hmacKey_of_le,
    fun _ m hlong => hmacSha1_congr_key (hmacKey_sha1 hlong).symm m,
    fun _ m _ hfits => hmacSha1_congr_key (hmacKey_append_zeros hfits) m⟩

/-- The exclusive or with one pad byte is the bytewise one with a string of that byte. -/
theorem xorPad_eq_zipWith (p : Byte) (k : List Byte) :
    xorPad p k = List.zipWith (· ^^^ ·) k (List.replicate k.length p) := by
  induction k with
  | nil => rfl
  | cons b k ih => exact congrArg ((b ^^^ p) :: ·) ih

theorem xorPad_hmacKey (p : Byte) (k : List Byte) :
    xorPad p (hmacKey k) = List.zipWith (· ^^^ ·) (hmacKey k) (List.replicate 64 p) := by
  rw [xorPad_eq_zipWith, hmacKey_length]

@[simp] theorem hmacSha1_length (k m : List Byte) : (hmacSha1 k m).length = 20 := sha1_length _

/-- Settles O35: ipad and opad as strings of 64 bytes, by `xorPad_hmacKey`. -/
theorem hmacNestsTwoHashes : Obligations.HmacNestsTwoHashes := fun k m =>
  ⟨by rw [hmacSha1, xorPad_hmacKey, xorPad_hmacKey], hmacSha1_length k m⟩

/-! ### The truncation and the code (R159, R160) -/

theorem truncateDigest_lt (hs : List Byte) : truncateDigest hs < 2 ^ 31 := Nat.mod_lt _ (by omega)

/-- The low four bits of a byte, as a mask and as a remainder. -/
theorem toNat_and_lowNibble (b : Byte) : (b &&& 0x0F).toNat = b.toNat % 16 :=
  (BitVec.toNat_and b 0x0F).trans (Nat.and_two_pow_sub_one_eq_mod b.toNat 4)

/-- Settles O36: the offset is at most 15, so the four bytes stand inside the digest (`fromBE_slice_four`), and the
mask is the remainder modulo 2^31. -/
theorem truncationReadsFourBytes : Obligations.TruncationReadsFourBytes := by
  intro hs off hlen hoff
  rw [toNat_and_lowNibble] at hoff
  have hoffLe : off ≤ 15 := by omega
  refine ⟨by omega, truncateDigest_lt hs, ?value⟩
  case value =>
    rw [truncateDigest, ← hoff, fromBE_slice_four (by omega)]
    exact (Nat.and_two_pow_sub_one_eq_mod _ 31).symm

/-- Settles O37: a remainder of the truncated number, which is itself below 2^31 and so below 10^10. -/
theorem codeIsReducedModuloPowerOfTen : Obligations.CodeIsReducedModuloPowerOfTen := by
  intro key counter d
  have hbin := truncateDigest_lt (hmacSha1 key (beBytes 8 counter))
  refine ⟨rfl, Nat.mod_eq_of_lt (by omega), Nat.mod_lt _ (Nat.pow_pos (by omega)), ?belowWord⟩
  case belowWord => exact Nat.lt_of_le_of_lt (Nat.mod_le _ _) hbin

end Sys2Proof.Machine

/-! PROOF. The operations HOTP, TOTP and VERIFY (spec/41_hotp_totp.md R170, R172, R175): settles O40, O41 and O42. -/

namespace Sys2Proof.Machine

open Sys2Proof Sys2Proof.Claims

/-- The digit counts this hardware allows (R7, R170). -/
theorem digitsIllegal_hardware (d : Byte) :
    digitsIllegal Config.hardware d = true ↔ d.toNat = 0 ∨ 10 < d.toNat := by
  rw [digitsIllegal_iff]
  simp [Config.hardware]

theorem digitsLegal_hardware (d : Byte) :
    digitsIllegal Config.hardware d = false ↔ 1 ≤ d.toNat ∧ d.toNat ≤ 10 := by
  rw [← Bool.not_eq_true, digitsIllegal_hardware]
  omega

/-- The ways HOTP ends on this hardware: `hotpAt_cases` with the legal digit counts. -/
theorem exec_hotp_cases (d : Byte) (counter : Word64) (s : State) :
    ((d.toNat = 0 ∨ 10 < d.toNat) ∧ exec (.hotp d counter) s = .next (answered s [0x04])) ∨
    ((1 ≤ d.toNat ∧ d.toNat ≤ 10) ∧ s.secret = [] ∧ exec (.hotp d counter) s = .next (answered s [0x06])) ∨
    ((1 ≤ d.toNat ∧ d.toNat ≤ 10) ∧ s.secret ≠ [] ∧ exec (.hotp d counter) s =
      .next (answered s (0x00 :: beBytes 4 (hotp s.secret counter.toNat d.toNat)))) := by
  rw [exec_eq_execAt, ← digitsIllegal_hardware, ← digitsLegal_hardware]
  exact hotpAt_cases Config.hardware d counter s

/-- Settles O40: the ways of `exec_hotp_cases` exclude each other, so each clause's hypotheses single out its own. -/
theorem hotpAnswersCode : Obligations.HotpAnswersCode := by
  refine ⟨fun d counter s hlo hhi hkey => ?code, fun d counter s hbad => ?param,
    fun d counter s hlo hhi hnone => ?noSecret, rejectsWrongLength_byte .hotp⟩ <;>
    rcases exec_hotp_cases d counter s with ⟨hillegal, h⟩ | ⟨hlegal, hempty, h⟩ | ⟨hlegal, hloaded, h⟩
  case code.inl => omega
  case code.inr.inl => exact absurd hempty hkey
  case param.inr.inl | param.inr.inr => omega
  case noSecret.inl => omega
  case noSecret.inr.inr => exact absurd hnone hloaded
  all_goals exact h

/-- The ways TOTP ends on this hardware: `totpAt_cases` with the legal digit counts. -/
theorem exec_totp_cases (d : Byte) (window : Word32) (time : Word64) (s : State) :
    (((d.toNat = 0 ∨ 10 < d.toNat) ∨ window = 0) ∧ exec (.totp d window time) s = .next (answered s [0x04])) ∨
    ((1 ≤ d.toNat ∧ d.toNat ≤ 10) ∧ window ≠ 0 ∧ s.secret = [] ∧
      exec (.totp d window time) s = .next (answered s [0x06])) ∨
    ((1 ≤ d.toNat ∧ d.toNat ≤ 10) ∧ window ≠ 0 ∧ s.secret ≠ [] ∧ exec (.totp d window time) s =
      .next (answered s (0x00 :: beBytes 4 (hotp s.secret (time.toNat / window.toNat) d.toNat)))) := by
  rw [exec_eq_execAt, ← digitsIllegal_hardware, ← digitsLegal_hardware]
  exact totpAt_cases Config.hardware d window time s

/-- Settles O41: the ways of `exec_totp_cases` exclude each other, so each clause's hypotheses single out its own. -/
theorem totpAnswersCode : Obligations.TotpAnswersCode := by
  refine ⟨fun d window time s hlo hhi hwindow hkey => ?code, fun d window time s hbad => ?param,
    fun d window time s hlo hhi hwindow hnone => ?noSecret, rejectsWrongLength_byte .totp⟩ <;>
    rcases exec_totp_cases d window time s with ⟨hillegal, h⟩ | ⟨hlegal, hpos, hempty, h⟩ |
      ⟨hlegal, hpos, hloaded, h⟩
  case code.inl => bv_omega
  case code.inr.inl => exact absurd hempty hkey
  case param.inr.inl | param.inr.inr => bv_omega
  case noSecret.inl => bv_omega
  case noSecret.inr.inr => exact absurd hnone hloaded
  all_goals exact h

/-- The verdict on the whole text: its length is the expected text's own (R175). -/
theorem verdictByte_wholeText (code : List Byte) (value d : Nat) :
    verdictByte (decide (code.length = d ∧ code = decText value d)) =
      if code = decText value d then 0x00 else 0x01 := by
  have hlength : (code.length = d ∧ code = decText value d) ↔ code = decText value d :=
    and_iff_right_of_imp fun h => by rw [h, decText_length]
  simp only [verdictByte, hlength, decide_eq_true_eq]

/-- The ways VERIFY ends on this hardware: `verifyAt_cases` with the legal digit counts. -/
theorem exec_verify_cases (d flags : Byte) (window : Word32) (time : Word64) (code : List Byte) (s : State) :
    ((2 ≤ flags.toNat ∨ (d.toNat = 0 ∨ 10 < d.toNat) ∨ window = 0) ∧
      exec (.verify d flags window time code) s = .next (answered s [0x04])) ∨
    (flags.toNat < 2 ∧ (1 ≤ d.toNat ∧ d.toNat ≤ 10) ∧ window ≠ 0 ∧ (flags.toNat = 0 ∨ s.secret = []) ∧
      exec (.verify d flags window time code) s = .next (answered s [0x07])) ∨
    (flags.toNat = 1 ∧ (1 ≤ d.toNat ∧ d.toNat ≤ 10) ∧ window ≠ 0 ∧ s.secret ≠ [] ∧
      exec (.verify d flags window time code) s = .next (answered s
        [0x00, if code = decText (totp s.secret time.toNat window.toNat d.toNat) d.toNat then 0x00 else 0x01])) := by
  rw [exec_eq_execAt, ← digitsIllegal_hardware, ← digitsLegal_hardware, ← verdictByte_wholeText]
  exact verifyAt_cases Config.hardware d flags window time code s

/-- The length of a VERIFY record, from its own byte 15 (R80). -/
theorem recordLength_verify (rec : List Byte) :
    recordLength Config.hardware .verify rec = 16 + (byteAt rec 15).toNat :=
  congrArg (16 + ·) (fieldNat_one rec 15)

/-- Settles O42: the ways of `exec_verify_cases` exclude each other, so each clause's hypotheses single out its
own. -/
theorem verifyAnswersVerdict : Obligations.VerifyAnswersVerdict := by
  refine ⟨fun d window time code s hlo hhi hwindow hkey => ?verdict, fun d flags window time code s hbad => ?param,
    fun d flags window time code s hflags hlo hhi hwindow hmissing => ?noAnswer, ?wrongLength⟩
  case verdict =>
    rcases exec_verify_cases d 1 window time code s with ⟨hillegal, -⟩ | ⟨-, -, -, hmissing, -⟩ | ⟨-, -, -, -, h⟩
    · bv_omega
    · exact hmissing.elim (fun hzero => absurd hzero (by decide)) (fun hempty => absurd hempty hkey)
    · exact h
  case param =>
    rcases exec_verify_cases d flags window time code s with ⟨-, h⟩ | ⟨hlow, hlegal, hpos, -⟩ |
      ⟨hone, hlegal, hpos, -⟩
    · exact h
    · bv_omega
    · bv_omega
  case noAnswer =>
    rcases exec_verify_cases d flags window time code s with ⟨hillegal, -⟩ | ⟨-, -, -, -, h⟩ |
      ⟨hone, -, -, hloaded, -⟩
    · bv_omega
    · exact h
    · exact hmissing.elim (fun hzero => by omega) (fun hempty => absurd hempty hloaded)
  case wrongLength =>
    rw [← funext recordLength_verify]
    exact rejectsWrongLength_byte .verify

end Sys2Proof.Machine

/-! PROOF. The frame codec, one operation at a time: FEED, TICK, FRAME and STATUS (spec/42_frame_codec.md R201 to
R213): settles O44, O45, O46, O47, O48, O49 and O50. -/

namespace Sys2Proof.Machine

open Sys2Proof Sys2Proof.Claims

/-! ### The checksum and the two-byte length field (R74, R76) -/

/-- The running sum modulo 256 is the sum as one number, reduced once. -/
theorem sum8_eq_byteSum (s : List Byte) : sum8 s = byteSum s := by
  induction s using List.reverseRecOn with
  | nil => rfl
  | append_singleton s b ih => simp [sum8_append_singleton, ih, byteSum, BitVec.ofNat_add]

theorem beBytes_two_be16 (hi lo : Byte) : beBytes 2 (be16 hi lo) = [hi, lo] := by
  have hfield : fromBE [hi, lo] = be16 hi lo := by simp [fromBE, be16]
  rw [← hfield]
  exact beBytes_fromBE [hi, lo]

theorem beBytes_two (n : Nat) : beBytes 2 n = [BitVec.ofNat 8 (n / 256), BitVec.ofNat 8 (n % 256)] := by
  have hlow : BitVec.ofNat 8 (n % 256) = BitVec.ofNat 8 n := BitVec.eq_of_toNat_eq (by simp)
  simp [beBytes, hlow]

theorem declaredLen_lt (buf : List Byte) : declaredLen buf < 65536 := by
  have hhi := (byteAt buf 4).isLt
  have hlo := (byteAt buf 5).isLt
  unfold declaredLen be16
  omega

/-- A byte after the length field leaves the declared length as it is. -/
theorem declaredLen_append {buf : List Byte} (h : 6 ≤ buf.length) (tail : List Byte) :
    declaredLen (buf ++ tail) = declaredLen buf := by
  rw [declaredLen, byteAt_append_left (by omega), byteAt_append_left (by omega), declaredLen]

/-! ### The judgement of a byte (R202, R203) -/

/-- R203's accepted bytes are those judged KEEP. -/
theorem judge_of_acceptsByte {buf : List Byte} {b : Byte} (h : acceptsByte buf b) :
    judge buf.length b (buf ++ [b]) = .keep := by
  rcases h with ⟨hlen, rfl⟩ | ⟨hlen, rfl⟩ | ⟨hlo, hhi⟩ | ⟨hlo, hhi⟩
  · simp [judge, hlen]
  · simp [judge, hlen]
  · rw [judge, if_neg (by omega), if_neg (by omega), if_pos hhi]
  · have hpayload : buf.length < 6 + declaredLen (buf ++ [b]) := by rwa [declaredLen_append hlo]
    rw [judge, if_neg (by omega), if_neg (by omega), if_neg (by omega)]
    exact if_pos hpayload

/-- A wrong byte where the fixed header stands is a protocol violation (R206). -/
theorem judge_of_badHeader {buf : List Byte} {b : Byte}
    (h : (buf.length = 0 ∧ b ≠ 0x55) ∨ (buf.length = 1 ∧ b ≠ 0xAA)) :
    judge buf.length b (buf ++ [b]) = .badHeader := by
  rcases h with ⟨hlen, hb⟩ | ⟨hlen, hb⟩
  · rw [judge, if_pos hlen, if_neg hb]
  · rw [judge, if_neg (by omega), if_pos hlen, if_neg hb]

/-- At offset 6 + L the byte is compared with the sum of the bytes before it (R205, R207). -/
theorem judge_of_complete {buf : List Byte} (hmin : 6 ≤ buf.length) (hlen : buf.length = 6 + declaredLen buf)
    (b : Byte) : judge buf.length b (buf ++ [b]) =
      if b = byteSum buf then .completeOk (declaredLen buf) else .completeBad (declaredLen buf) (byteSum buf) := by
  have hbody : (buf ++ [b]).take (6 + declaredLen buf) = buf := List.take_left' hlen
  rw [judge, if_neg (by omega), if_neg (by omega), if_neg (by omega)]
  simp only [declaredLen_append hmin, hbody, sum8_eq_byteSum]
  exact if_neg (by omega)

/-- In a state of R24 a byte is refused for its header position, or it stands where the checksum does. -/
theorem badHeader_or_complete {buf : List Byte} {b : Byte} (hok : RxBufOk buf) (h : ¬ acceptsByte buf b) :
    ((buf.length = 0 ∧ b ≠ 0x55) ∨ (buf.length = 1 ∧ b ≠ 0xAA)) ∨
      (6 ≤ buf.length ∧ buf.length = 6 + declaredLen buf) := by
  obtain ⟨-, -, hdeclared⟩ := hok
  simp only [acceptsByte, not_or, not_and] at h
  obtain ⟨hfirst, hsecond, hfields, hpayload⟩ := h
  by_cases h0 : buf.length = 0
  · exact .inl (.inl ⟨h0, hfirst h0⟩)
  · by_cases h1 : buf.length = 1
    · exact .inl (.inr ⟨h1, hsecond h1⟩)
    · have hmin : 6 ≤ buf.length := by omega
      exact .inr ⟨hmin, Nat.le_antisymm (hdeclared hmin) (Nat.le_of_not_lt (hpayload hmin))⟩

/-! ### FEED (R201) -/

theorem exec_feed_of_acceptsByte {s : State} {byte : Byte} (h : acceptsByte s.rxBuf byte) (now : Millis) :
    exec (.feed byte now) s = .next { s with
      rxBuf := s.rxBuf ++ [byte], rxLastMs := now, responses := s.responses ++ [[0x00, 0x00]] } := by
  have hkeep := judge_of_acceptsByte h
  rcases execFeed_cases byte now s with ⟨-, hexec⟩ | ⟨hj, -⟩ | ⟨_, hj, -⟩ | ⟨_, _, hj, -⟩
  case inl => exact hexec
  all_goals cases hkeep.symm.trans hj

theorem exec_feed_of_badHeader {s : State} {byte : Byte}
    (h : (s.rxBuf.length = 0 ∧ byte ≠ 0x55) ∨ (s.rxBuf.length = 1 ∧ byte ≠ 0xAA)) (now : Millis) :
    exec (.feed byte now) s = .next { s with
      rxBuf := [], responses := s.responses ++ [[0x00, 0x03, BitVec.ofNat 8 s.rxBuf.length, byte]] } := by
  have hbad := judge_of_badHeader h
  rcases execFeed_cases byte now s with ⟨hj, -⟩ | ⟨-, hexec⟩ | ⟨_, hj, -⟩ | ⟨_, _, hj, -⟩
  case inr.inl => exact hexec
  all_goals cases hbad.symm.trans hj

/-- Once 6 + L bytes have arrived, those from offset 6 on are the whole payload. -/
theorem slice_payload {buf : List Byte} (hlen : buf.length = 6 + declaredLen buf) (b : Byte) :
    slice (buf ++ [b]) 6 (declaredLen buf) = buf.drop 6 := by
  rw [slice, List.drop_append_of_le_length (by omega)]
  exact List.take_left' (by rw [List.length_drop]; omega)

/-- The bytes of the FRAME_OK event, its length field the two bytes received (R86, R205). -/
theorem frameOk_bytes_of_complete {buf : List Byte} (hmin : 6 ≤ buf.length)
    (hlen : buf.length = 6 + declaredLen buf) (b : Byte) :
    (Event.frameOk (byteAt (buf ++ [b]) 2) (byteAt (buf ++ [b]) 3)
      (slice (buf ++ [b]) 6 (declaredLen buf))).bytes =
      [0x01, byteAt buf 2, byteAt buf 3, byteAt buf 4, byteAt buf 5] ++ buf.drop 6 := by
  have hpayload : (buf.drop 6).length = be16 (byteAt buf 4) (byteAt buf 5) := by
    rw [List.length_drop, hlen, Nat.add_sub_cancel_left, declaredLen]
  rw [slice_payload hlen, byteAt_append_left (by omega), byteAt_append_left (by omega), Event.bytes, hpayload,
    beBytes_two_be16]
  rfl

theorem exec_feed_of_validFrame {s : State} {byte : Byte} (hmin : 6 ≤ s.rxBuf.length)
    (hlen : s.rxBuf.length = 6 + declaredLen s.rxBuf) (hsum : byte = byteSum s.rxBuf) (now : Millis) :
    exec (.feed byte now) s = .next { s with
      rxBuf := []
      responses := s.responses ++ [[0x00, 0x01, byteAt s.rxBuf 2, byteAt s.rxBuf 3, byteAt s.rxBuf 4,
        byteAt s.rxBuf 5] ++ s.rxBuf.drop 6] } := by
  have hjudge := judge_of_complete hmin hlen byte
  rw [if_pos hsum] at hjudge
  rcases execFeed_cases byte now s with ⟨hj, -⟩ | ⟨hj, -⟩ | ⟨_, hj, hexec⟩ | ⟨_, _, hj, -⟩ <;>
    cases hjudge.symm.trans hj
  case inr.inr.inl.refl =>
    rw [State.emit, frameOk_bytes_of_complete hmin hlen] at hexec
    exact hexec

theorem exec_feed_of_badChecksum {s : State} {byte : Byte} (hmin : 6 ≤ s.rxBuf.length)
    (hlen : s.rxBuf.length = 6 + declaredLen s.rxBuf) (hsum : byte ≠ byteSum s.rxBuf) (now : Millis) :
    exec (.feed byte now) s = .next { s with
      rxBuf := [], responses := s.responses ++ [[0x00, 0x02, byte, byteSum s.rxBuf]] } := by
  have hjudge := judge_of_complete hmin hlen byte
  rw [if_neg hsum] at hjudge
  rcases execFeed_cases byte now s with ⟨hj, -⟩ | ⟨hj, -⟩ | ⟨_, hj, -⟩ | ⟨_, _, hj, hexec⟩ <;>
    cases hjudge.symm.trans hj
  exact hexec

/-- What FEED does with a byte that is not accepted, in a state of R24: one of the three ways above, each with the
event that `closingEvent` names. -/
theorem exec_feed_of_not_acceptsByte {s : State} {byte : Byte} (hok : RxBufOk s.rxBuf)
    (h : ¬ acceptsByte s.rxBuf byte) (now : Millis) :
    exec (.feed byte now) s = .next { s with
      rxBuf := [], responses := s.responses ++ [0x00 :: closingEvent s.rxBuf byte] } := by
  rcases badHeader_or_complete hok h with hbad | ⟨hmin, hlen⟩
  · rw [exec_feed_of_badHeader hbad, closingEvent, if_pos (by omega)]
  · rw [closingEvent, if_neg (by omega)]
    by_cases hsum : byte = byteSum s.rxBuf
    · rw [exec_feed_of_validFrame hmin hlen hsum, if_pos hsum]
      rfl
    · rw [exec_feed_of_badChecksum hmin hlen hsum, if_neg hsum]

/-- A buffer of R24 has room for one more byte: the longest frame is 7 + 65535 bytes (R201, D9). -/
theorem length_append_le_rxCapacity {buf : List Byte} (hok : RxBufOk buf) (b : Byte) :
    (buf ++ [b]).length ≤ Config.hardware.rxCapacity := by
  obtain ⟨-, -, hdeclared⟩ := hok
  have hlt : be16 (byteAt buf 4) (byteAt buf 5) < 65536 := declaredLen_lt buf
  have hcapacity : Config.hardware.rxCapacity = 65542 := rfl
  rw [List.length_append, List.length_singleton]
  omega

/-- Settles O44: the accepted bytes are those judged KEEP; in a state of R24 the others end in one of the three
closing events. -/
theorem feedKeepsAcceptedByte : Obligations.FeedKeepsAcceptedByte :=
  ⟨fun _ _ now haccepts => exec_feed_of_acceptsByte haccepts now,
    fun _ _ now hok hrefused => exec_feed_of_not_acceptsByte hok hrefused now,
    fun _ byte hok => length_append_le_rxCapacity hok byte, rejectsWrongLength_byte .feed⟩

/-- Settles O45: `exec_feed_of_badHeader` at the two offsets. -/
theorem feedRefusesHeaderByte : Obligations.FeedRefusesHeaderByte := by
  refine ⟨fun s byte now hlen hbyte => ?first, fun s byte now hlen hbyte => ?second⟩
  case first =>
    rw [exec_feed_of_badHeader (.inl ⟨hlen, hbyte⟩), hlen]
    rfl
  case second =>
    rw [exec_feed_of_badHeader (.inr ⟨hlen, hbyte⟩), hlen]
    rfl

/-- Settles O46: the byte is judged at offset 6 + L (`judge_of_complete`) and matches. -/
theorem feedCompletesValidFrame : Obligations.FeedCompletesValidFrame :=
  fun _ _ now hmin hlen hsum => exec_feed_of_validFrame hmin hlen hsum now

/-- Settles O47: the byte is judged at offset 6 + L (`judge_of_complete`) and differs. -/
theorem feedRejectsBadChecksum : Obligations.FeedRejectsBadChecksum :=
  fun _ _ now hmin hlen hsum => exec_feed_of_badChecksum hmin hlen hsum now

/-! ### TICK (R209, R210) -/

/-- The ways TICK ends on this hardware: `tickAt_cases` with the timeout of 300 ms and the 32-bit clock. -/
theorem exec_tick_cases (now : Millis) (s : State) :
    (300 < (now.toNat + 2 ^ 32 - s.rxLastMs.toNat) % 2 ^ 32 ∧ s.rxBuf ≠ [] ∧
      exec (.tick now) s = .next { s with
        rxBuf := [], responses := s.responses ++ [0x00 :: 0x04 :: beBytes 4 s.rxBuf.length] }) ∨
    (((now.toNat + 2 ^ 32 - s.rxLastMs.toNat) % 2 ^ 32 ≤ 300 ∨ s.rxBuf = []) ∧
      exec (.tick now) s = .next (answered s [0x00, 0x00])) := by
  have helapsed : elapsedMs Config.hardware now s.rxLastMs =
      (now.toNat + 2 ^ 32 - s.rxLastMs.toNat) % 2 ^ 32 := elapsedMs_eq le_rfl now s.rxLastMs
  rw [← helapsed]
  exact tickAt_cases Config.hardware now s

/-- Settles O48: the two ways of `exec_tick_cases` exclude each other. -/
theorem tickClearsStalledFrame : Obligations.TickClearsStalledFrame := by
  refine ⟨fun s now hlate hbuf => ?clears, fun s now hkeeps => ?keeps, rejectsWrongLength_byte .tick⟩ <;>
    rcases exec_tick_cases now s with ⟨hgt, hne, hexec⟩ | ⟨hle, hexec⟩
  case clears.inr => exact absurd hle (not_or.mpr ⟨Nat.not_le.mpr hlate, hbuf⟩)
  case keeps.inl => exact absurd hkeeps (not_or.mpr ⟨Nat.not_le.mpr hgt, hne⟩)
  all_goals exact hexec

/-! ### FRAME and STATUS (R211, R213) -/

/-- The bytes before the checksum, the length field written out (R70, R74). -/
theorem frameBody_eq (version cmd : Byte) (payload : List Byte) : frameBody version cmd payload =
    [0x55, 0xAA, version, cmd, BitVec.ofNat 8 (payload.length / 256), BitVec.ofNat 8 (payload.length % 256)]
      ++ payload := by
  rw [frameBody, beBytes_two]
  rfl

theorem frameBytes_eq (version cmd : Byte) (payload : List Byte) : frameBytes version cmd payload =
    frameBody version cmd payload ++ [byteSum (frameBody version cmd payload)] := by
  rw [frameBytes, sum8_eq_byteSum]

@[simp] theorem frameBytes_length (version cmd : Byte) (payload : List Byte) :
    (frameBytes version cmd payload).length = 7 + payload.length := by
  simp [frameBytes, frameBody]
  omega

theorem exec_frame (version cmd : Byte) (payload : List Byte) (s : State) :
    exec (.frame version cmd payload) s = .next (answered s (0x00 :: frameBytes version cmd payload)) := rfl

/-- Settles O49: the frame of the model is the one written out (`frameBytes_eq`, `frameBody_eq`). -/
theorem frameBuildsWireFrame : Obligations.FrameBuildsWireFrame := by
  refine ⟨fun s version cmd payload body _ hbody => ?frame, rejectsWrongLength_byte .frame⟩
  case frame =>
    rw [hbody, ← frameBody_eq, ← frameBytes_eq]
    exact ⟨exec_frame version cmd payload s, frameBytes_length version cmd payload⟩

theorem exec_status (s : State) : exec .status s =
    .next (answered s (0x00 :: (beBytes 4 s.statusWord.toNat ++ beBytes 4 s.rxLastMs.toNat))) := rfl

/-- A flag of the status word at bit n, as the number that a condition gives. -/
theorem bit_decide_shiftLeft (p : Prop) [Decidable p] (n : Nat) :
    bit (decide p) <<< n = (((if p then 1 else 0) <<< n : Nat) : Word32) := by
  by_cases h : p
  · refine BitVec.eq_of_toNat_eq ?_
    simp only [bit, h, decide_true, if_true, BitVec.toNat_shiftLeft]
    rfl
  · simp [bit, h]

/-- The status word by the formula of R213, its two flags as conditions on the lengths (R27, R30). -/
theorem statusWord_eq (s : State) : s.statusWord =
    BitVec.ofNat 32 s.rxBuf.length ||| (BitVec.ofNat 32 s.secret.length <<< 17) |||
      ((if 0 < s.secret.length then 1 else 0) <<< 25) ||| ((if s.rxBuf.length = 0 then 1 else 0) <<< 26) := by
  rw [State.statusWord, State.secretValid, State.rxEmpty, bit_decide_shiftLeft, bit_decide_shiftLeft, State.rxLen]

/-- Settles O50: STATUS answers the two words, and `statusWord_eq` is the rule's formula. -/
theorem statusReadsState : Obligations.StatusReadsState :=
  ⟨exec_status, statusWord_eq, rejectsWrongLength_byte .status⟩

end Sys2Proof.Machine

/-! PROOF. The status of every record in the order of R254, and what an error status leaves unchanged
(spec/60_exceptions.md R252, R254): settles O8 and O9. -/

namespace Sys2Proof.Machine

open Sys2Proof Sys2Proof.Claims

/-! ### The status of an instruction (R254, places 4 to 7) -/

/-- The status an instruction ends in, from its operands and the secret: the checks of R254 that a record which
decodes has yet to pass. `exec_answersStatus` ties it to `exec`, `expectedStatus_eq_statusOf` to the raw bytes. -/
def statusOf (secret : List Byte) : Instr → Byte
  | .b32enc data => if 160 < data.length then 0x03 else 0x00
  | .b32dec text => if 256 < text.length then 0x03 else if b32decode text = none then 0x05 else 0x00
  | .ldsec text => if 256 < text.length then 0x03 else if b32decode text = none then 0x05 else 0x00
  | .hotp d _ => if d.toNat < 1 ∨ 10 < d.toNat then 0x04 else if secret = [] then 0x06 else 0x00
  | .totp d window _ =>
      if (d.toNat < 1 ∨ 10 < d.toNat) ∨ window = 0 then 0x04 else if secret = [] then 0x06 else 0x00
  | .verify d flags window _ _ =>
      if (d.toNat < 1 ∨ 10 < d.toNat) ∨ window = 0 ∨ 2 ≤ flags.toNat then 0x04
      else if flags.toNat % 2 = 0 ∨ secret = [] then 0x07 else 0x00
  | .feed _ _ => 0x00
  | .tick _ => 0x00
  | .frame _ _ _ => 0x00
  | .status => 0x00

/-- The outcome is a next state with one response more, whose first byte is `code`. -/
def AnswersStatus (code : Byte) (s : State) (out : Host.Outcome State Fault Refusal) : Prop :=
  ∃ (t : State) (fields : List Byte), out = .next t ∧ t.responses = s.responses ++ [code :: fields]

theorem answersStatus_answered {code code' : Byte} {fields : List Byte} {s u : State}
    {out : Host.Outcome State Fault Refusal} (hout : out = .next (answered u (code' :: fields)))
    (hresp : u.responses = s.responses) (hcode : code = code') : AnswersStatus code s out :=
  ⟨_, fields, hout, by rw [answered, hresp, hcode]⟩

/-- Every instruction ends in the status `statusOf` names, by the ways its own lemma says it can end. -/
theorem exec_answersStatus (i : Instr) (s : State) : AnswersStatus (statusOf s.secret i) s (exec i s) := by
  cases i with
  | b32enc data =>
    rcases Nat.lt_or_ge 160 data.length with hlong | hfits
    · exact answersStatus_answered (exec_b32enc_of_gt hlong s) rfl (if_pos hlong)
    · exact answersStatus_answered (exec_b32enc_of_le hfits s) rfl (if_neg (Nat.not_lt.mpr hfits))
  | b32dec text =>
    rcases Nat.lt_or_ge 256 text.length with hlong | hfits
    · exact answersStatus_answered (exec_b32dec_of_gt hlong s) rfl (if_pos hlong)
    · rw [statusOf, if_neg (Nat.not_lt.mpr hfits)]
      cases hdec : b32decode text with
      | none => exact answersStatus_answered (exec_b32dec_of_none hfits hdec s) rfl rfl
      | some out => exact answersStatus_answered (exec_b32dec_of_some hfits hdec s) rfl rfl
  | ldsec text =>
    rcases Nat.lt_or_ge 256 text.length with hlong | hfits
    · exact answersStatus_answered (exec_ldsec_of_gt hlong s) rfl (if_pos hlong)
    · rw [statusOf, if_neg (Nat.not_lt.mpr hfits)]
      cases hdec : b32decode text with
      | none => exact answersStatus_answered (exec_ldsec_of_none hfits hdec s) rfl rfl
      | some out => exact answersStatus_answered (exec_ldsec_of_some hfits hdec s) rfl rfl
  | hotp d counter =>
    rcases exec_hotp_cases d counter s with ⟨hillegal, h⟩ | ⟨hlegal, hempty, h⟩ | ⟨hlegal, hloaded, h⟩ <;>
      refine answersStatus_answered h rfl ?_
    · exact if_pos (by omega)
    · exact (if_neg (by omega)).trans (if_pos hempty)
    · exact (if_neg (by omega)).trans (if_neg hloaded)
  | totp d window time =>
    rcases exec_totp_cases d window time s with ⟨hillegal, h⟩ | ⟨hlegal, hpos, hempty, h⟩ |
      ⟨hlegal, hpos, hloaded, h⟩ <;> refine answersStatus_answered h rfl ?_
    · exact if_pos (hillegal.imp_left (by omega))
    · exact (if_neg (not_or.mpr ⟨by omega, hpos⟩)).trans (if_pos hempty)
    · exact (if_neg (not_or.mpr ⟨by omega, hpos⟩)).trans (if_neg hloaded)
  | verify d flags window time code =>
    rcases exec_verify_cases d flags window time code s with ⟨hillegal, h⟩ | ⟨hlow, hlegal, hpos, hmissing, h⟩ |
      ⟨hone, hlegal, hpos, hloaded, h⟩ <;> refine answersStatus_answered h rfl ?_
    · exact if_pos (by bv_omega)
    · exact (if_neg (by bv_omega)).trans (if_pos (hmissing.imp_left (by omega)))
    · exact (if_neg (by bv_omega)).trans (if_neg (not_or.mpr ⟨by omega, hloaded⟩))
  | feed byte now =>
    rcases execFeed_cases byte now s with ⟨-, h⟩ | ⟨-, h⟩ | ⟨_, -, h⟩ | ⟨_, _, -, h⟩ <;>
      exact answersStatus_answered h rfl rfl
  | tick now =>
    rcases tickAt_cases Config.hardware now s with ⟨-, -, h⟩ | ⟨-, h⟩ <;> exact answersStatus_answered h rfl rfl
  | frame version cmd payload => exact answersStatus_answered (exec_frame version cmd payload s) rfl rfl
  | status => exact answersStatus_answered (exec_status s) rfl rfl

/-! ### The same status from the raw bytes of a record -/

/-- The variable part of a record exceeds a bound exactly if the record does, its fixed fields added. -/
theorem lt_length_drop_iff (rec : List Byte) (n fixed : Nat) :
    n < (rec.drop fixed).length ↔ fixed + n < rec.length := by
  rw [List.length_drop]
  omega

/-- A text fails to decode exactly for a byte that is neither `=` nor a symbol (R123, R251). -/
theorem b32decode_eq_none_iff_bad (t : List Byte) :
    b32decode t = none ↔ ∃ c ∈ t, c ≠ 0x3D ∧ symval c = none := by
  refine ⟨fun h => ?_, b32decode_eq_none_of_bad⟩
  obtain ⟨c, hc, hval⟩ := (b32decode_eq_none_iff t).mp h
  obtain ⟨hmem, hpad⟩ := List.mem_filter.mp hc
  exact ⟨c, hmem, of_decide_eq_true hpad, hval⟩

/-- The window operand is 0 exactly if its four bytes spell 0: a number of four bytes fits the word. -/
theorem windowField_eq_zero_iff (rec : List Byte) (off : Nat) :
    windowField Config.hardware rec off = 0 ↔ fromBE (slice rec off 4) = 0 := by
  have hlen : (slice rec off 4).length ≤ 4 := by simp
  have hlt : fromBE (slice rec off 4) < 2 ^ 32 :=
    (fromBE_lt _).trans_le (Nat.pow_le_pow_right (by omega) hlen)
  have hval : (windowField Config.hardware rec off).toNat = fromBE (slice rec off 4) := Nat.mod_eq_of_lt hlt
  rw [← hval]
  bv_omega

/-- A record of the length its opcode and `n` give passes places 1 to 3 of R254, and the table's further checks on
its bytes are those of its instruction on its operands. -/
theorem expectedStatus_eq_statusOf (op : Opcode) (body secret : List Byte)
    (hlen : (op.byte :: body).length = recordLength Config.hardware op (op.byte :: body)) :
    expectedStatus (op.byte :: body) secret =
      statusOf secret (operandsOf Config.hardware op (op.byte :: body)) := by
  have hlayout := layoutLength_byte_cons op body
  have hhead : byteAt (op.byte :: body) 0 = op.byte := rfl
  rw [← hlen] at hlayout
  simp only [expectedStatus, hhead, hlayout]
  rw [if_neg (List.cons_ne_nil _ _), if_neg (Option.some_ne_none _), if_neg (not_not.mpr rfl)]
  generalize op.byte :: body = rec
  cases op
  case b32enc | b32dec | ldsec =>
    simp only [operandsOf, statusOf, lt_length_drop_iff, b32decode_eq_none_iff_bad]
    simp [Opcode.byte]
  case totp | verify =>
    simp only [operandsOf, statusOf, windowField_eq_zero_iff]
    simp [Opcode.byte]
  all_goals simp [Opcode.byte, operandsOf, statusOf]

/-- Settles O8: places 1 to 3 are the checks of `decode`; the others are made by the instruction
(`exec_answersStatus`), on operands that the table reads off the bytes (`expectedStatus_eq_statusOf`). -/
theorem statusFollowsPriority : Obligations.StatusFollowsPriority := by
  intro s rec rest hport
  change AnswersStatus (expectedStatus rec s.secret) s (step s)
  cases rec with
  | nil => exact answersStatus_answered (step_of_reject hport rfl) rfl rfl
  | cons b body =>
    rcases opcodeOf_cases b with hillegal | ⟨op, -, rfl⟩
    · refine answersStatus_answered (step_of_reject hport (decode_cons_of_illegal hillegal body)) rfl ?_
      rw [expectedStatus, if_neg (List.cons_ne_nil _ _), if_pos (layoutLength_cons_of_illegal hillegal body)]
      rfl
    · rcases decode_byte_cons op body with ⟨hlen, hdec⟩ | ⟨hlen, why, hdec, hwhy⟩
      · rw [expectedStatus_eq_statusOf op body s.secret hlen, step_of_record hport, perform_of_ok hdec]
        exact exec_answersStatus _ { s with pending := rest }
      · refine answersStatus_answered (step_of_reject hport hdec) rfl ?_
        rw [expectedStatus, layoutLength_byte_cons, if_neg (List.cons_ne_nil _ _), if_neg (Option.some_ne_none _),
          if_pos (fun h => hlen (Option.some.inj h).symm), hwhy]
        rfl

/-! ### What an error writes (R252) -/

/-- What a record with first byte `head` may do from `s` to `t`: if its response has an error status, the three
elements are kept, but for the secret when LDSEC ends in `ERR_B32_SYMBOL` (R252). -/
def KeepsElementsOnError (head : Option Byte) (s t : State) : Prop :=
  ∀ (status : Byte) (fields : List Byte), t.responses = s.responses ++ [status :: fields] → status ≠ 0x00 →
    t.rxBuf = s.rxBuf ∧ t.rxLastMs = s.rxLastMs ∧
      t.secret = if head = some 0x03 ∧ status = 0x05 then [] else s.secret

/-- The status byte of the last response is the one it was emitted with. -/
theorem status_eq_of_append {responses : List (List Byte)} {a b : Byte} {fields fields' : List Byte}
    (h : responses ++ [a :: fields] = responses ++ [b :: fields']) : a = b :=
  (List.cons.inj (List.cons.inj (List.append_cancel_left h)).1).1

/-- An `OK` response is no error. -/
theorem keepsElementsOnError_of_ok {head : Option Byte} {s u : State} {fields : List Byte}
    (hresp : u.responses = s.responses) : KeepsElementsOnError head s (u.respond .ok fields) := by
  intro status fields' h herr
  rw [State.respond_responses, hresp] at h
  exact absurd (status_eq_of_append h).symm herr

/-- A response alone writes no element. -/
theorem keepsElementsOnError_of_respond {head : Option Byte} {st : Status} (s : State) (fields : List Byte)
    (hnot : ¬ (head = some 0x03 ∧ st.code = 0x05)) : KeepsElementsOnError head s (s.respond st fields) := by
  intro status fields' h _
  rw [State.respond_responses] at h
  rw [← status_eq_of_append h, if_neg hnot]
  exact ⟨rfl, rfl, rfl⟩

/-- The exception: LDSEC empties the secret on a text that does not decode. -/
theorem keepsElementsOnError_ldsec (s : State) (fields : List Byte) :
    KeepsElementsOnError (some 0x03) s ((s.setSecret []).respond .errB32Symbol fields) := by
  intro status fields' h _
  rw [State.respond_responses, State.setSecret_responses] at h
  rw [← status_eq_of_append h]
  exact ⟨rfl, rfl, rfl⟩

/-- FEED and TICK always answer `OK`, LDSEC ends in one of its three ways, and no other operation writes an
element (`execAt_cases`). -/
theorem exec_keepsElementsOnError {i : Instr} {s t : State} (h : exec i s = .next t) :
    KeepsElementsOnError (some (opcodeOfInstr i).byte) s t := by
  have hother := execAt_cases Config.hardware i s
  rw [← exec_eq_execAt] at hother
  cases i with
  | feed byte now =>
    rcases execFeed_cases byte now s with ⟨-, hend⟩ | ⟨-, hend⟩ | ⟨_, -, hend⟩ | ⟨_, _, -, hend⟩ <;>
      cases h.symm.trans hend <;> exact keepsElementsOnError_of_ok rfl
  | tick now =>
    rcases tickAt_cases Config.hardware now s with ⟨-, -, hend⟩ | ⟨-, hend⟩ <;>
      cases h.symm.trans hend <;> exact keepsElementsOnError_of_ok rfl
  | ldsec text =>
    rcases ldsecAt_cases Config.hardware text s with ⟨-, hend⟩ | ⟨-, -, hend⟩ | ⟨_, -, -, hend⟩ <;>
      cases h.symm.trans hend
    · exact keepsElementsOnError_of_respond s [] (by simp [Status.code])
    · exact keepsElementsOnError_ldsec s _
    · exact keepsElementsOnError_of_ok rfl
  | _ =>
    rcases hother (by simp) (by simp) with ⟨st, fields, hend⟩ | ⟨_, _, _, _, hldsec, -⟩
    · cases h.symm.trans hend
      exact keepsElementsOnError_of_respond s fields (by simp [opcodeOfInstr, Opcode.byte])
    · cases hldsec

/-- Settles O9: a rejected record only answers, an instruction's error writes at most what
`exec_keepsElementsOnError` allows; FEED's four ways are those of `execFeed_cases`. -/
theorem errorStatusWritesNoState : Obligations.ErrorStatusWritesNoState := by
  refine ⟨fun s t rec rest status fields hport hstep hresp herr => ?error, fun s byte now => ?feed⟩
  case error =>
    cases hdec : decode rec with
    | error why =>
      rw [step_of_reject hport hdec, Host.Outcome.next.injEq] at hstep
      have hnot : ¬ (rec.head? = some 0x03 ∧ (rejectStatus why).code = 0x05) := by
        cases why <;> simp [rejectStatus, Status.code]
      subst hstep
      exact keepsElementsOnError_of_respond { s with pending := rest } [] hnot status fields hresp herr
    | ok i =>
      rw [step_of_record hport, perform_of_ok hdec] at hstep
      rw [head?_of_decode_ok hdec]
      exact exec_keepsElementsOnError hstep status fields hresp herr
  case feed =>
    rcases execFeed_cases byte now s with ⟨-, h⟩ | ⟨-, h⟩ | ⟨_, -, h⟩ | ⟨_, _, -, h⟩
    · exact ⟨_, _, h, rfl, fun hevent => absurd rfl hevent⟩
    all_goals exact ⟨_, _, h, rfl, fun _ => rfl⟩

end Sys2Proof.Machine

/-! PROOF. Command records and instructions stand for each other, at every well-formed choice of the parameters
(spec/30_encoding.md section 2; spec/00_scope.md R7): settles O60, O15, O16 and O17. -/

namespace Sys2Proof.Machine

open Sys2Proof

/-! ### The fields of a record (R81) -/

/-- A field is read from the bytes that stand at its offset. -/
theorem fieldNat_of_eq_append {rec pre field post : List Byte} (h : rec = pre ++ (field ++ post)) :
    fieldNat rec pre.length field.length = fromBE field := by
  rw [fieldNat, slice, h, List.drop_left, List.take_left]

/-- What a field's offset and width read back from a record in which a number was written there. -/
theorem fieldNat_beBytes {rec pre post : List Byte} {off n v : Nat} (h : rec = pre ++ (beBytes n v ++ post))
    (hoff : pre.length = off) : fieldNat rec off n = v % 256 ^ n := by
  have hread := fieldNat_of_eq_append h
  rwa [hoff, beBytes_length, fromBE_beBytes] at hread

/-- The bytes of a field inside the record are the big-endian bytes of its number. -/
theorem beBytes_fieldNat {rec : List Byte} {off n : Nat} (h : off + n ≤ rec.length) :
    beBytes n (fieldNat rec off n) = slice rec off n := by
  have hlen : (slice rec off n).length = n := by
    rw [slice_length]
    omega
  have hbytes := beBytes_fromBE (slice rec off n)
  rwa [hlen] at hbytes

theorem fieldNat_lt (rec : List Byte) (off n : Nat) : fieldNat rec off n < 256 ^ n :=
  (fromBE_lt _).trans_le (Nat.pow_le_pow_right (by omega) (by rw [slice_length]; omega))

/-- A record from an offset on is the field there, then the record from the field's end on. -/
theorem drop_eq_slice_append (rec : List Byte) (off n : Nat) :
    rec.drop off = slice rec off n ++ rec.drop (off + n) := by
  rw [slice, ← List.drop_drop, List.take_append_drop]

theorem drop_eq_byteAt_cons {rec : List Byte} {off : Nat} (h : off < rec.length) :
    rec.drop off = byteAt rec off :: rec.drop (off + 1) := by
  rw [byteAt, List.getD_eq_getElem _ _ h, List.drop_eq_getElem_cons h]

end Sys2Proof.Machine

namespace Sys2Proof

open Sys2Proof.Machine

/-! ### Operands whose width is a parameter (R7) -/

theorem two_pow_width {w : Nat} (hw : w % 8 = 0) : 256 ^ (w / 8) = 2 ^ w := by
  rw [show 256 = 2 ^ 8 from rfl, ← Nat.pow_mul, Nat.mul_div_cancel' (Nat.dvd_of_mod_eq_zero hw)]

/-- A word that fits the width is read back from its field. -/
theorem ofNat_fieldNat_beBytes {rec pre post : List Byte} {off w m : Nat} {v : BitVec m} (hw : w % 8 = 0)
    (hfits : v.toNat < 2 ^ w) (h : rec = pre ++ (beBytes (w / 8) v.toNat ++ post)) (hoff : pre.length = off) :
    BitVec.ofNat m (fieldNat rec off (w / 8)) = v := by
  rw [fieldNat_beBytes h hoff, two_pow_width hw, Nat.mod_eq_of_lt hfits, BitVec.ofNat_toNat, BitVec.setWidth_eq]

/-- A field no wider than the word it is read into keeps its number, which lies within the field's width. -/
theorem toNat_ofNat_fieldNat {w m : Nat} (hw : w % 8 = 0) (hm : w ≤ m) (rec : List Byte) (off : Nat) :
    (BitVec.ofNat m (fieldNat rec off (w / 8))).toNat = fieldNat rec off (w / 8) ∧
      (BitVec.ofNat m (fieldNat rec off (w / 8))).toNat < 2 ^ w := by
  have hlt : fieldNat rec off (w / 8) < 2 ^ w := two_pow_width hw ▸ fieldNat_lt rec off (w / 8)
  have hread : (BitVec.ofNat m (fieldNat rec off (w / 8))).toNat = fieldNat rec off (w / 8) :=
    Nat.mod_eq_of_lt (hlt.trans_le (Nat.pow_le_pow_right (by omega) hm))
  exact ⟨hread, hread.trans_lt hlt⟩

/-! ### From an instruction to its record and back -/

/-- A VERIFY record, split at its length field `n`. -/
theorem encodeAt_verify_eq_code (cfg : Config) (d flags : Byte) (window : Word32) (time : Word64)
    (code : List Byte) : encodeAt cfg (.verify d flags window time code) =
      (Opcode.byte .verify :: d :: flags :: (beBytes cfg.windowBytes window.toNat ++
        beBytes cfg.timeBytes time.toNat)) ++ (beBytes 1 code.length ++ code) := by
  simp [encodeAt]

/-- The length field of an instruction's record says how long its variable part is. -/
theorem variableLength_encodeAt (cfg : Config) {i : Instr} (h : i.WellFormed = true) :
    variableLength cfg (opcodeOfInstr i) (encodeAt cfg i) = variablePart i := by
  cases i with
  | b32enc data | b32dec data | ldsec data =>
    have hlen : data.length < 256 ^ 2 := of_decide_eq_true h
    exact (fieldNat_beBytes (pre := [_]) rfl rfl).trans (Nat.mod_eq_of_lt hlen)
  | verify d flags window time code =>
    have hlen : code.length < 256 ^ 1 := of_decide_eq_true h
    refine (fieldNat_beBytes (encodeAt_verify_eq_code cfg d flags window time code) ?_).trans (Nat.mod_eq_of_lt hlen)
    simp
    omega
  | frame version cmd payload =>
    have hlen : payload.length < 256 ^ 2 := of_decide_eq_true h
    exact (fieldNat_beBytes (pre := [_, _, _]) rfl rfl).trans (Nat.mod_eq_of_lt hlen)
  | _ => rfl

/-- The operands read from an instruction's record are those it was written from. -/
theorem operandsOf_encodeAt {cfg : Config} {i : Instr} (hcfg : cfg.wf) (h : i.operandsFit cfg = true) :
    operandsOf cfg (opcodeOfInstr i) (encodeAt cfg i) = i := by
  obtain ⟨-, -, -, -, -, ⟨-, -, hnow⟩, ⟨-, -, htime⟩, ⟨-, -, hwindow⟩⟩ := hcfg
  cases i with
  | b32enc | b32dec | ldsec | frame | status => rfl
  | hotp d counter =>
    have hcounter : BitVec.ofNat 64 (fieldNat (encodeAt cfg (.hotp d counter)) 2 8) = counter :=
      ofNat_fieldNat_beBytes (w := 64) (pre := [_, d]) rfl counter.isLt (by rw [List.append_nil]; rfl) rfl
    simp only [operandsOf, opcodeOfInstr, hcounter]
    rfl
  | totp d window time =>
    obtain ⟨hw, ht⟩ := Bool.and_eq_true_iff.mp h
    have hreadWindow : windowField cfg (encodeAt cfg (.totp d window time)) 2 = window :=
      ofNat_fieldNat_beBytes (pre := [_, d]) hwindow (of_decide_eq_true hw) rfl rfl
    have hreadTime : timeField cfg (encodeAt cfg (.totp d window time)) (2 + cfg.windowBytes) = time :=
      ofNat_fieldNat_beBytes (pre := _ :: d :: beBytes cfg.windowBytes window.toNat) htime (of_decide_eq_true ht)
        (by rw [List.append_nil]; rfl) (by simp; omega)
    simp only [operandsOf, opcodeOfInstr, hreadWindow, hreadTime]
    rfl
  | verify d flags window time code =>
    obtain ⟨hw, ht⟩ := Bool.and_eq_true_iff.mp h
    have hreadWindow : windowField cfg (encodeAt cfg (.verify d flags window time code)) 3 = window :=
      ofNat_fieldNat_beBytes (pre := [_, d, flags]) hwindow (of_decide_eq_true hw) rfl rfl
    have hreadTime : timeField cfg (encodeAt cfg (.verify d flags window time code)) (3 + cfg.windowBytes) = time :=
      ofNat_fieldNat_beBytes (pre := _ :: d :: flags :: beBytes cfg.windowBytes window.toNat) htime
        (of_decide_eq_true ht) rfl (by simp; omega)
    have hreadCode : (encodeAt cfg (.verify d flags window time code)).drop
        (4 + cfg.windowBytes + cfg.timeBytes) = code := by
      rw [encodeAt_verify_eq_code, ← List.append_assoc]
      exact List.drop_left' (by simp; omega)
    simp only [operandsOf, opcodeOfInstr, hreadWindow, hreadTime, hreadCode]
    rfl
  | feed byte now =>
    have hread : nowField cfg (encodeAt cfg (.feed byte now)) 2 = now :=
      ofNat_fieldNat_beBytes (pre := [_, byte]) hnow (of_decide_eq_true h) (by rw [List.append_nil]; rfl) rfl
    simp only [operandsOf, opcodeOfInstr, hread]
    rfl
  | tick now =>
    have hread : nowField cfg (encodeAt cfg (.tick now)) 1 = now :=
      ofNat_fieldNat_beBytes (pre := [_]) hnow (of_decide_eq_true h) (by rw [List.append_nil]; rfl) rfl
    simp only [operandsOf, opcodeOfInstr, hread]

/-- A record of the length that its opcode and `n` give decodes to its operands (R82). -/
theorem decodeAt_of_recordLength {cfg : Config} {op : Opcode} {rec : List Byte} (hhead : rec.head? = some op.byte)
    (hlen : rec.length = recordLength cfg op rec) : decodeAt cfg rec = .ok (operandsOf cfg op rec) := by
  have hmin := minLength_le_recordLength cfg op rec
  obtain ⟨body, rfl⟩ := List.head?_eq_some_iff.mp hhead
  simp only [decodeAt, opcodeOf_byte]
  rw [if_neg (by omega), if_neg (not_not.mpr hlen)]

theorem decodeAt_encodeAt {cfg : Config} {i : Instr} (hcfg : cfg.wf) (hwf : i.WellFormed = true)
    (hfit : i.operandsFit cfg = true) : decodeAt cfg (encodeAt cfg i) = .ok i := by
  obtain ⟨hhead, hlen⟩ := Laws.encodeAt_shape cfg i
  rw [← variableLength_encodeAt cfg hwf] at hlen
  rw [decodeAt_of_recordLength hhead hlen, operandsOf_encodeAt hcfg hfit]

/-! ### From a record to its instruction and back -/

/-- A record that decodes has the length its opcode and `n` give, and its instruction's operands are read from it. -/
theorem decodeAt_eq_ok {cfg : Config} {rec : List Byte} {i : Instr} (h : decodeAt cfg rec = .ok i) :
    ∃ op body, rec = op.byte :: body ∧ rec.length = minLength cfg op + variableLength cfg op rec ∧
      i = operandsOf cfg op rec := by
  rcases decodeAt_cases cfg rec with ⟨-, he⟩ | ⟨_, _, -, -, he⟩ | ⟨_, _, -, -, he⟩ | ⟨_, _, -, -, -, he⟩ |
    ⟨op, body, hrec, hlen, hok⟩ <;> rw [h] at *
  case inr.inr.inr.inr => exact ⟨op, body, hrec, hlen, Except.ok.inj hok⟩
  all_goals cases he

/-- A field inside the record, written back before the rest of the record, gives the record from its offset on. -/
theorem beBytes_fieldNat_append_drop {rec : List Byte} {off n : Nat} (h : off + n ≤ rec.length) :
    beBytes n (fieldNat rec off n) ++ rec.drop (off + n) = rec.drop off := by
  rw [beBytes_fieldNat h, ← drop_eq_slice_append]

/-- The last field of a record. -/
theorem beBytes_fieldNat_of_end {rec : List Byte} {off n : Nat} (h : off + n = rec.length) :
    beBytes n (fieldNat rec off n) = rec.drop off := by
  rw [← beBytes_fieldNat_append_drop h.le, List.drop_eq_nil_of_le h.ge, List.append_nil]

/-- A length field and the variable part it counts. -/
theorem beBytes_length_append_drop {rec : List Byte} {off n fin : Nat} (hfin : off + n = fin)
    (h : rec.length = fin + fieldNat rec off n) :
    beBytes n (rec.drop fin).length ++ rec.drop fin = rec.drop off := by
  have hlen : (rec.drop fin).length = fieldNat rec off n := by
    rw [List.length_drop]
    omega
  subst hfin
  rw [hlen, beBytes_fieldNat_append_drop (by omega)]

/-- A variable part is as long as its length field can say. -/
theorem length_drop_lt {rec : List Byte} {off n fin : Nat} (h : rec.length = fin + fieldNat rec off n) :
    (rec.drop fin).length < 256 ^ n := by
  have hlt := fieldNat_lt rec off n
  rw [List.length_drop]
  omega

/-- The operands read from a record of the right length write it again, to the last byte, and fit it. -/
theorem encodeAt_operandsOf {cfg : Config} {op : Opcode} {rec body : List Byte} (hcfg : cfg.wf)
    (hrec : rec = op.byte :: body) (hlen : rec.length = minLength cfg op + variableLength cfg op rec) :
    encodeAt cfg (operandsOf cfg op rec) = rec ∧ (operandsOf cfg op rec).WellFormed = true ∧
      (operandsOf cfg op rec).operandsFit cfg = true := by
  obtain ⟨-, -, -, -, -, ⟨-, hnow32, hnow⟩, ⟨-, htime64, htime⟩, ⟨-, hwindow32, hwindow⟩⟩ := hcfg
  have hwhole : op.byte :: rec.drop 1 = rec := by rw [hrec, List.drop_one, List.tail_cons]
  have hreadWindow : ∀ off, (windowField cfg rec off).toNat = fieldNat rec off cfg.windowBytes ∧
      (windowField cfg rec off).toNat < 2 ^ cfg.windowWidth := toNat_ofNat_fieldNat hwindow hwindow32 rec
  have hreadTime : ∀ off, (timeField cfg rec off).toNat = fieldNat rec off cfg.timeBytes ∧
      (timeField cfg rec off).toNat < 2 ^ cfg.timeWidth := toNat_ofNat_fieldNat htime htime64 rec
  have hreadNow : ∀ off, (nowField cfg rec off).toNat = fieldNat rec off cfg.nowBytes ∧
      (nowField cfg rec off).toNat < 2 ^ cfg.nowWidth := toNat_ofNat_fieldNat hnow hnow32 rec
  cases op <;> simp only [minLength, variableLength] at hlen <;> simp only [operandsOf, encodeAt]
  case b32enc | b32dec | ldsec =>
    refine ⟨?_, decide_eq_true (length_drop_lt (n := 2) hlen), rfl⟩
    rw [beBytes_length_append_drop rfl hlen, hwhole]
  case hotp =>
    obtain ⟨hcounter, -⟩ := toNat_ofNat_fieldNat (w := 64) (m := 64) rfl le_rfl rec 2
    refine ⟨?_, rfl, rfl⟩
    rw [hcounter, beBytes_fieldNat_of_end (by omega), ← drop_eq_byteAt_cons (by omega), hwhole]
  case totp =>
    obtain ⟨hwindowRead, hwindowFits⟩ := hreadWindow 2
    obtain ⟨htimeRead, htimeFits⟩ := hreadTime (2 + cfg.windowBytes)
    refine ⟨?_, rfl, Bool.and_eq_true_iff.mpr ⟨decide_eq_true hwindowFits, decide_eq_true htimeFits⟩⟩
    rw [hwindowRead, htimeRead, beBytes_fieldNat_of_end (off := 2 + cfg.windowBytes) (by omega),
      beBytes_fieldNat_append_drop (by omega), ← drop_eq_byteAt_cons (by omega), hwhole]
  case verify =>
    obtain ⟨hwindowRead, hwindowFits⟩ := hreadWindow 3
    obtain ⟨htimeRead, htimeFits⟩ := hreadTime (3 + cfg.windowBytes)
    refine ⟨?_, decide_eq_true (length_drop_lt (n := 1) hlen),
      Bool.and_eq_true_iff.mpr ⟨decide_eq_true hwindowFits, decide_eq_true htimeFits⟩⟩
    rw [hwindowRead, htimeRead, beBytes_length_append_drop (by omega) hlen,
      beBytes_fieldNat_append_drop (by omega), beBytes_fieldNat_append_drop (by omega),
      ← drop_eq_byteAt_cons (by omega), ← drop_eq_byteAt_cons (by omega), hwhole]
  case feed =>
    obtain ⟨hnowRead, hnowFits⟩ := hreadNow 2
    refine ⟨?_, rfl, decide_eq_true hnowFits⟩
    rw [hnowRead, beBytes_fieldNat_of_end (by omega), ← drop_eq_byteAt_cons (by omega), hwhole]
  case tick =>
    obtain ⟨hnowRead, hnowFits⟩ := hreadNow 1
    refine ⟨?_, rfl, decide_eq_true hnowFits⟩
    rw [hnowRead, beBytes_fieldNat_of_end (by omega), hwhole]
  case frame =>
    refine ⟨?_, decide_eq_true (length_drop_lt (n := 2) hlen), rfl⟩
    rw [beBytes_length_append_drop rfl hlen, ← drop_eq_byteAt_cons (by omega), ← drop_eq_byteAt_cons (by omega),
      hwhole]
  case status =>
    refine ⟨?_, rfl, rfl⟩
    rw [← hwhole, List.drop_eq_nil_of_le hlen.le]

theorem encodeAt_of_decodeAt {cfg : Config} {rec : List Byte} {i : Instr} (hcfg : cfg.wf)
    (h : decodeAt cfg rec = .ok i) :
    encodeAt cfg i = rec ∧ i.WellFormed = true ∧ i.operandsFit cfg = true := by
  obtain ⟨op, body, hrec, hlen, rfl⟩ := decodeAt_eq_ok h
  exact encodeAt_operandsOf hcfg hrec hlen

/-! ### The hardware's parameters -/

theorem hardware_wf : Config.hardware.wf := by decide

/-- At the defaults every operand has exactly its field's width. -/
theorem operandsFit_hardware (i : Instr) : i.operandsFit Config.hardware = true := by
  cases i with
  | totp d window time | verify d flags window time code =>
    exact Bool.and_eq_true_iff.mpr ⟨decide_eq_true window.isLt, decide_eq_true time.isLt⟩
  | feed byte now | tick now => exact decide_eq_true now.isLt
  | _ => rfl

/-- Settles O60: `decodeAt_encodeAt` and `encodeAt_of_decodeAt`; `encode` and `decode` are these at the defaults. -/
theorem everyInstantiationDecodesItsRecords : Obligations.EveryInstantiationDecodesItsRecords :=
  ⟨fun _ _ hcfg hwf hfit => decodeAt_encodeAt hcfg hwf hfit, fun _ _ _ hcfg hdec => encodeAt_of_decodeAt hcfg hdec,
    fun i => ⟨operandsFit_hardware i, rfl⟩, fun _ => rfl⟩

/-- Settles O15: `decodeAt_encodeAt` at the hardware's parameters. -/
theorem decodeOfEncode : Obligations.DecodeOfEncode :=
  fun i hwf => decodeAt_encodeAt hardware_wf hwf (operandsFit_hardware i)

/-- Settles O16: `encodeAt_of_decodeAt` at the hardware's parameters. -/
theorem encodeOfDecode : Obligations.EncodeOfDecode := fun _ _ hdec =>
  let ⟨hrec, hwf, _⟩ := encodeAt_of_decodeAt hardware_wf hdec
  ⟨hrec, hwf⟩

/-- Settles O17: ten closed records, evaluated. -/
theorem sampleRecordsDecode : Obligations.SampleRecordsDecode := by
  unfold Obligations.SampleRecordsDecode
  decide

end Sys2Proof

/-! PROOF. Base32 there and back, the number of `=`, and what decoding ignores (spec/40_base32.md R120 to R126,
spec/70_reset_and_hazards.md R292): settles O28, O26, O29 and O30. -/

namespace Sys2Proof.Machine

open Sys2Proof Sys2Proof.Claims

/-! ### The text of an encoding, without its padding -/

theorem alpha_ne_padByte (v : Symbol) : alpha v ≠ padByte := by
  intro h
  have hval := symval_alpha v
  rw [h] at hval
  cases hval

theorem withoutPadding_b32encode (b : List Byte) :
    withoutPadding (b32encode b) = (symbolGroups (filledBits b)).map alpha := by
  rw [withoutPadding, b32encode_eq, List.filter_append, List.filter_replicate]
  simp [List.filter_map, Function.comp_def, alpha_ne_padByte]

/-! ### Decoding an encoding (R126) -/

theorem symvals_map_alpha (vs : List Symbol) : symvals (vs.map alpha) = some vs := by
  induction vs with
  | nil => rfl
  | cons v vs ih => simp only [List.map_cons, symvals, symval_alpha, ih]

/-- A bit string of whole groups of five is spelled by its symbols to the end. -/
theorem flatMap_symbolBits_symbolGroups {bits : List Bool} (h : bits.length % 5 = 0) :
    (symbolGroups bits).flatMap symbolBits = bits := by
  refine (flatMap_symbolBits_symbolGroups_prefix bits).eq_of_length ?_
  rw [flatMap_symbolBits_length, symbolGroups_length]
  omega

theorem filledBits_length (b : List Byte) : (filledBits b).length = 5 * symbolCount b.length := by
  rw [filledBits, List.length_append, flatMap_byteBits_length, List.length_replicate, symbolCount]
  omega

/-- The groups of eight of a byte string's bits are its bytes; fewer than eight bits after them are dropped (R124). -/
theorem byteGroups_flatMap_byteBits_append (b : List Byte) {rest : List Bool} (h : rest.length < 8) :
    byteGroups (b.flatMap byteBits ++ rest) = b := by
  induction b with
  | nil => exact List.eq_nil_of_length_eq_zero (by rw [byteGroups_length, List.flatMap_nil, List.nil_append]; omega)
  | cons x b ih =>
    have hbyte : BitVec.ofNat 8 (bitsVal (byteBits x)) = x := by decide +revert
    rw [List.flatMap_cons, List.append_assoc]
    exact congrArg₂ List.cons hbyte ih

/-- Settles O28: the symbols read back are those written, their bits are the filled bits, and the fill is dropped. -/
theorem base32RoundTrip : Obligations.Base32RoundTrip := by
  intro b
  have htext : (b32encode b).filter (fun c => decide (c ≠ padByte)) = (symbolGroups (filledBits b)).map alpha :=
    withoutPadding_b32encode b
  have hbits : (symbolGroups (filledBits b)).flatMap symbolBits = filledBits b :=
    flatMap_symbolBits_symbolGroups (by rw [filledBits_length]; omega)
  have hbytes : byteGroups (filledBits b) = b :=
    byteGroups_flatMap_byteBits_append b (by rw [List.length_replicate, symbolCount]; omega)
  simp only [b32decode, htext, symvals_map_alpha, hbits, hbytes]

/-! ### The padding (R122) -/

/-- Only the padding of a text is `=`. -/
theorem count_padByte_b32encode (b : List Byte) :
    (b32encode b).count padByte = (8 - symbolCount b.length % 8) % 8 := by
  have hsymbols : padByte ∉ (symbolGroups (filledBits b)).map alpha := by
    simp [alpha_ne_padByte]
  rw [b32encode_eq, List.count_append, List.count_eq_zero_of_not_mem hsymbols, List.count_replicate_self, Nat.zero_add]

/-- The table of R122: each residue fixes how far the symbols fall short of a multiple of 8. -/
theorem paddingCount_eq_table (n : Nat) :
    (8 - symbolCount n % 8) % 8 = [0, 6, 4, 3, 1].getD (n % 5) 0 := by
  have hres : n % 5 = 0 ∨ n % 5 = 1 ∨ n % 5 = 2 ∨ n % 5 = 3 ∨ n % 5 = 4 := by omega
  unfold symbolCount
  rcases hres with h | h | h | h | h <;> rw [h] <;> simp <;> omega

/-- Settles O26: `count_padByte_b32encode` by the table of the five residues. -/
theorem paddingCountByResidue : Obligations.PaddingCountByResidue :=
  ⟨fun b => (count_padByte_b32encode b).trans (paddingCount_eq_table b.length), rfl⟩

/-! ### Letter case and padding (R120, R123) -/

/-- A letter has the value of its upper case, and a byte is `=` exactly if its upper case is. -/
theorem symval_upperCase (c : Byte) : symval (upperCase c) = symval c := by decide +revert

theorem upperCase_eq_padByte_iff (c : Byte) : upperCase c = padByte ↔ c = padByte := by decide +revert

/-- The values of a text are those of its bytes, one by one. -/
theorem symvals_map_of_symval {f : Byte → Byte} (hf : ∀ c, symval (f c) = symval c) (t : List Byte) :
    symvals (t.map f) = symvals t := by
  induction t with
  | nil => rfl
  | cons c t ih => simp only [List.map_cons, symvals, hf, ih]

/-- Settles O29: what decoding reads of the second text is the upper case of what it reads of the first, value by
value the same. -/
theorem decodeIgnoresCaseAndPadding : Obligations.DecodeIgnoresCaseAndPadding := by
  intro t
  have hread : withoutPadding ((withoutPadding t).map upperCase) = (withoutPadding t).map upperCase := by
    simp [withoutPadding, List.filter_map, Function.comp_def, upperCase_eq_padByte_iff]
  have hvals : symvals (withoutPadding ((withoutPadding t).map upperCase)) = symvals (withoutPadding t) := by
    rw [hread, symvals_map_of_symval symval_upperCase]
  change b32decode t = b32decode ((withoutPadding t).map upperCase)
  rw [withoutPadding] at hvals
  simp only [b32decode, hvals]
  rfl

/-! ### A failed load (R292) -/

/-- Settles O30: both operations find the text bad; after LDSEC the secret is empty, and HOTP and VERIFY answer so. -/
theorem failedLoadLosesSecret : Obligations.FailedLoadLosesSecret := by
  intro s text hlen hbad
  obtain ⟨-, -, hnoSecret, -⟩ := hotpAnswersCode
  obtain ⟨-, -, hnoAnswer, -⟩ := verifyAnswersVerdict
  have hnone := b32decode_eq_none_of_bad hbad
  refine ⟨exec_b32dec_of_none hlen hnone s, _, exec_ldsec_of_none hlen hnone s, rfl, fun d counter hlo hhi => ?hotp,
    fun d window time code hlo hhi hwindow => ?verify⟩
  case hotp => exact hnoSecret d counter _ hlo hhi rfl
  case verify => exact hnoAnswer d 1 window time code _ (by decide) hlo hhi hwindow (.inr rfl)

end Sys2Proof.Machine

/-! PROOF. The parameters of an instantiation and the invariant that every step keeps (spec/00_scope.md R7,
spec/10_state.md R24 and R26): settles O56, O20, O18 and O19. -/

namespace Sys2Proof.Machine

open Sys2Proof Sys2Proof.Claims

/-! ### The hardware is the default instantiation (R7) -/

theorem step_eq_stepAt (s : State) : step s = stepAt Config.hardware s := by
  have hrun : exec = execAt Config.hardware := funext fun i => funext (exec_eq_execAt i)
  have hperform : perform = performAt Config.hardware := by
    funext rec u
    rw [perform, hrun, performAt]
  rw [step, hperform, stepAt]

/-- A timeout is no NONE: the two events have different kinds (R86). -/
theorem emit_none_ne_rxTimeout {s u : State} {fields : List Byte}
    (h : u.responses = s.responses ++ [0x00 :: 0x04 :: fields]) : s.emit .none ≠ u := by
  rintro rfl
  simp [Event.bytes] at h

/-- Settles O56: the definitions at the defaults, and the two ways TICK ends (`tickAt_cases`). -/
theorem hardwareIsDefaultInstantiation : Obligations.HardwareIsDefaultInstantiation := by
  refine ⟨exec_eq_execAt, step_eq_stepAt, hardware_wf, fun cfg s now hcfg hbuf => ?tick⟩
  case tick =>
    obtain ⟨-, -, -, -, -, ⟨-, hwidth, -⟩, -, -⟩ := hcfg
    rw [← elapsedMs_eq hwidth]
    rcases tickAt_cases cfg now s with ⟨hlate, -, hclears⟩ | ⟨hkeeps, hnone⟩
    · exact iff_of_true hlate hclears
    · have hle := hkeeps.resolve_right hbuf
      refine iff_of_false (Nat.not_lt.mpr hle) fun h => ?_
      exact emit_none_ne_rxTimeout rfl (Host.Outcome.next.inj (hnone.symm.trans h))

/-! ### The invariant (R24, R26) -/

theorem rxBufOk_nil : RxBufOk [] := by decide

/-- A byte that R203 accepts extends a good buffer to a good buffer. -/
theorem rxBufOk_append_of_acceptsByte {buf : List Byte} {b : Byte} (hok : RxBufOk buf) (h : acceptsByte buf b) :
    RxBufOk (buf ++ [b]) := by
  obtain ⟨hfirst, hsecond, -⟩ := hok
  rcases h with ⟨hlen, rfl⟩ | ⟨hlen, rfl⟩ | ⟨hlo, hhi⟩ | ⟨hlo, hhi⟩
  case inl =>
    rw [List.eq_nil_of_length_eq_zero hlen]
    decide
  case inr.inl =>
    obtain ⟨x, rfl⟩ := List.length_eq_one_iff.mp hlen
    rw [show x = 0x55 from hfirst le_rfl]
    decide
  all_goals
    refine ⟨fun _ => ?_, fun _ => ?_, fun hmin => ?_⟩
    · rw [byteAt_append_left (by omega), hfirst (by omega)]
    · rw [byteAt_append_left (by omega), hsecond (by omega)]
    rw [List.length_append, List.length_singleton] at *
  case inr.inr.inl => omega
  case inr.inr.inr =>
    rw [byteAt_append_left (by omega), byteAt_append_left (by omega)]
    omega

/-- Every instruction keeps the invariant: FEED appends only what R203 accepts, LDSEC's texts decode into the secret
register, and the others write neither. -/
theorem execAt_keeps_inv {cfg : Config} {s t : State} {i : Instr} (hcfg : cfg.wf) (hinv : s.invAt cfg)
    (h : execAt cfg i s = .next t) : t.invAt cfg := by
  obtain ⟨-, hsecretMax, -⟩ := hcfg
  obtain ⟨hbuf, hsecret⟩ := hinv
  have hother := execAt_cases cfg i s
  cases i with
  | feed byte now =>
    by_cases haccepts : acceptsByte s.rxBuf byte
    · cases h.symm.trans (exec_feed_of_acceptsByte haccepts now)
      exact ⟨rxBufOk_append_of_acceptsByte hbuf haccepts, hsecret⟩
    · cases h.symm.trans (exec_feed_of_not_acceptsByte hbuf haccepts now)
      exact ⟨rxBufOk_nil, hsecret⟩
  | tick now =>
    rcases tickAt_cases cfg now s with ⟨-, -, hend⟩ | ⟨-, hend⟩ <;> cases h.symm.trans hend
    · exact ⟨rxBufOk_nil, hsecret⟩
    · exact ⟨hbuf, hsecret⟩
  | ldsec text =>
    rcases ldsecAt_cases cfg text s with ⟨-, hend⟩ | ⟨-, -, hend⟩ | ⟨out, htext, hout, hend⟩ <;>
      cases h.symm.trans hend
    · exact ⟨hbuf, hsecret⟩
    · exact ⟨hbuf, Nat.zero_le _⟩
    · have hlen := b32decode_length_le hout
      refine ⟨hbuf, ?_⟩
      change out.length ≤ cfg.secretMax
      omega
  | _ =>
    rcases hother (by simp) (by simp) with ⟨st, fields, hend⟩ | ⟨_, _, _, _, hldsec, -⟩
    · cases h.symm.trans hend
      exact ⟨hbuf, hsecret⟩
    · cases hldsec

/-- Every record completes and keeps the invariant: a rejected one only answers. -/
theorem performAt_keeps_inv {cfg : Config} {s : State} (hcfg : cfg.wf) (hinv : s.invAt cfg) (rec : List Byte) :
    ∃ t, performAt cfg rec s = .next t ∧ t.invAt cfg := by
  cases hdec : decodeAt cfg rec with
  | error why => exact ⟨_, performWith_of_error hdec _ s, hinv⟩
  | ok i =>
    obtain ⟨t, -, hexec, -⟩ := execAt_completes cfg i s
    exact ⟨t, (performWith_of_ok hdec _ s).trans hexec, execAt_keeps_inv hcfg hinv hexec⟩

/-- Every step completes and keeps the invariant, by what stands at the port. -/
theorem stepAt_keeps_inv {cfg : Config} {s : State} (hcfg : cfg.wf) (hinv : s.invAt cfg) :
    ∃ t, stepAt cfg s = .next t ∧ t.invAt cfg := by
  cases hport : s.pending with
  | nil => exact ⟨s, performInput_of_idle hport _, hinv⟩
  | cons input rest =>
    cases input with
    | reset dropped => exact ⟨_, performInput_of_reset hport _, rxBufOk_nil, Nat.zero_le _⟩
    | record rec =>
      obtain ⟨t, hperform, ht⟩ := performAt_keeps_inv (s := { s with pending := rest }) hcfg hinv rec
      exact ⟨t, (performInput_of_record hport _).trans hperform, ht⟩

/-- Settles O20: `execAt_keeps_inv` for an instruction, `stepAt_keeps_inv` for a step. -/
theorem everyInstantiationKeepsInvariant : Obligations.EveryInstantiationKeepsInvariant :=
  fun _ _ hcfg hinv => ⟨fun _ _ hexec => execAt_keeps_inv hcfg hinv hexec, stepAt_keeps_inv hcfg hinv⟩

/-- Settles O18: `stepAt_keeps_inv` at the hardware's parameters. -/
theorem stepKeepsInvariant : Obligations.StepKeepsInvariant := by
  intro s t hinv hstep
  obtain ⟨u, hu, hkeeps⟩ := stepAt_keeps_inv hardware_wf hinv
  rw [step_eq_stepAt, hu, Host.Outcome.next.injEq] at hstep
  exact hstep ▸ hkeeps

/-- Settles O19: both buffers are empty after reset. -/
theorem resetMeetsInvariant : Obligations.ResetMeetsInvariant := ⟨rxBufOk_nil, Nat.zero_le _⟩

end Sys2Proof.Machine

/-! PROOF. What an operation reads and writes, the port, and runs of records (spec/10_state.md sections 2 to 4,
spec/20_memory.md, spec/70_reset_and_hazards.md sections 1 and 5): settles O12, O13, O14, O10, O2, O3, O4 and O11. -/

namespace Sys2Proof.Machine

open Sys2Proof Sys2Proof.Claims

/-! ### What an operation reads -/

/-- The state with the given elements, the port as it was in `u`, and one response more. -/
def endedWith (u : State) (rx : List Byte) (last : Millis) (key resp : List Byte) : State :=
  { rxBuf := rx, rxLastMs := last, secret := key, pending := u.pending, responses := u.responses ++ [resp] }

/-- From every state of `agree` the operation ends the same way: the same receive buffer, clock sample and response,
and the same change of the secret. -/
def EndsAlike (agree : State → Prop) (i : Instr) : Prop :=
  ∃ (rx : List Byte) (last : Millis) (load : List Byte → List Byte) (resp : List Byte), ∀ u, agree u →
    exec i u = .next (endedWith u rx last (load u.secret) resp)

/-- The state agrees with `s` in the receive buffer, the clock sample and the secret's length. -/
def SameButSecretBytes (s u : State) : Prop :=
  u.rxBuf = s.rxBuf ∧ u.rxLastMs = s.rxLastMs ∧ u.secret.length = s.secret.length

/-- The state agrees with `s` in the three elements. -/
def SameElements (s u : State) : Prop := u.rxBuf = s.rxBuf ∧ u.rxLastMs = s.rxLastMs ∧ u.secret = s.secret

theorem SameElements.sameButSecretBytes {s u : State} (h : SameElements s u) : SameButSecretBytes s u := by
  obtain ⟨hbuf, hlast, hsecret⟩ := h
  exact ⟨hbuf, hlast, congrArg List.length hsecret⟩

/-- An operation that changes at most the secret, the same way from every state, ends alike. -/
theorem endsAlike_of_setSecret {agree : State → Prop} {i : Instr} {s : State} (load : List Byte → List Byte)
    {resp : List Byte} (hagree : ∀ u, agree u → SameButSecretBytes s u)
    (h : ∀ u, agree u → exec i u = .next (answered (u.setSecret (load u.secret)) resp)) : EndsAlike agree i := by
  refine ⟨s.rxBuf, s.rxLastMs, load, resp, fun u hu => ?_⟩
  obtain ⟨hbuf, hlast, -⟩ := hagree u hu
  rw [h u hu, ← hbuf, ← hlast]
  rfl

/-- An operation that only answers, the same from every state, ends alike. -/
theorem endsAlike_of_answered {agree : State → Prop} {i : Instr} {s : State} {resp : List Byte}
    (hagree : ∀ u, agree u → SameButSecretBytes s u) (h : ∀ u, agree u → exec i u = .next (answered u resp)) :
    EndsAlike agree i :=
  endsAlike_of_setSecret id hagree h

/-- The event of a judged byte (R201, R86). -/
def feedEvent (byte : Byte) (buf : List Byte) : Judgement → Event
  | .keep => .none
  | .badHeader => .hdrDiscard buf.length byte
  | .completeOk len => .frameOk (byteAt (buf ++ [byte]) 2) (byteAt (buf ++ [byte]) 3) (slice (buf ++ [byte]) 6 len)
  | .completeBad _ computed => .csumErr byte computed

/-- FEED as one equation: the judgement alone decides what is kept and which event is answered. -/
theorem exec_feed_eq (byte : Byte) (now : Millis) (u : State) {j : Judgement}
    (hj : judge u.rxBuf.length byte (u.rxBuf ++ [byte]) = j) :
    exec (.feed byte now) u = .next (endedWith u (if j = .keep then u.rxBuf ++ [byte] else [])
      (if j = .keep then now else u.rxLastMs) u.secret (0x00 :: (feedEvent byte u.rxBuf j).bytes)) := by
  subst hj
  rcases execFeed_cases byte now u with ⟨hj, hend⟩ | ⟨hj, hend⟩ | ⟨len, hj, hend⟩ | ⟨len, c, hj, hend⟩ <;>
    rw [hj] <;> exact hend

/-- FEED reads the receive buffer, and the clock sample only to leave it. -/
theorem endsAlike_feed (byte : Byte) (now : Millis) (s : State) :
    EndsAlike (SameButSecretBytes s) (.feed byte now) :=
  ⟨_, _, id, _, fun u ⟨hbuf, hlast, _⟩ => by rw [exec_feed_eq byte now u rfl, hbuf, hlast]; rfl⟩

/-- TICK reads the receive buffer and the clock sample. -/
theorem endsAlike_tick (now : Millis) (s : State) : EndsAlike (SameButSecretBytes s) (.tick now) := by
  obtain ⟨hclears, hkeeps, -⟩ := tickClearsStalledFrame
  rcases exec_tick_cases now s with ⟨hlate, hne, -⟩ | ⟨hle, -⟩
  · refine ⟨[], s.rxLastMs, id, 0x00 :: 0x04 :: beBytes 4 s.rxBuf.length, fun u ⟨hbuf, hlast, _⟩ => ?_⟩
    rw [hclears u now (by rwa [hlast]) (by rwa [hbuf]), hbuf, ← hlast]
    rfl
  · exact endsAlike_of_answered (fun _ => id) fun u ⟨hbuf, hlast, _⟩ => hkeeps u now (by rwa [hbuf, hlast])

/-- STATUS reads the lengths of both buffers and the clock sample (R31, R213). -/
theorem endsAlike_status (s : State) : EndsAlike (SameButSecretBytes s) .status := by
  refine endsAlike_of_answered (resp := 0x00 :: (beBytes 4 s.statusWord.toNat ++ beBytes 4 s.rxLastMs.toNat))
    (fun _ => id) fun u ⟨hbuf, hlast, hsecret⟩ => ?_
  have hword : u.statusWord = s.statusWord := by rw [statusWord_eq, statusWord_eq, hbuf, hsecret]
  rw [exec_status, hword, hlast]

/-- LDSEC reads nothing: its secret and its response are those of its text. -/
theorem endsAlike_ldsec (text : List Byte) (s : State) : EndsAlike (SameButSecretBytes s) (.ldsec text) := by
  rcases Nat.lt_or_ge 256 text.length with hlong | hfits
  · exact endsAlike_of_answered (fun _ => id) fun u _ => exec_ldsec_of_gt hlong u
  · cases hdec : b32decode text with
    | none => exact endsAlike_of_setSecret (fun _ => []) (fun _ => id) fun u _ => exec_ldsec_of_none hfits hdec u
    | some out =>
      exact endsAlike_of_setSecret (fun _ => out) (fun _ => id) fun u _ => exec_ldsec_of_some hfits hdec u

/-- No operation but HOTP, TOTP and VERIFY reads the bytes of the secret. -/
theorem endsAlike_of_sameButSecretBytes {i : Instr} (s : State) (hhotp : ∀ d c, i ≠ .hotp d c)
    (htotp : ∀ d w t, i ≠ .totp d w t) (hverify : ∀ d f w t c, i ≠ .verify d f w t c) :
    EndsAlike (SameButSecretBytes s) i := by
  cases i with
  | b32enc data =>
    rcases Nat.lt_or_ge 160 data.length with hlong | hfits
    · exact endsAlike_of_answered (fun _ => id) fun u _ => exec_b32enc_of_gt hlong u
    · exact endsAlike_of_answered (fun _ => id) fun u _ => exec_b32enc_of_le hfits u
  | b32dec text =>
    rcases Nat.lt_or_ge 256 text.length with hlong | hfits
    · exact endsAlike_of_answered (fun _ => id) fun u _ => exec_b32dec_of_gt hlong u
    · cases hdec : b32decode text with
      | none => exact endsAlike_of_answered (fun _ => id) fun u _ => exec_b32dec_of_none hfits hdec u
      | some out => exact endsAlike_of_answered (fun _ => id) fun u _ => exec_b32dec_of_some hfits hdec u
  | ldsec text => exact endsAlike_ldsec text s
  | hotp d c => exact absurd rfl (hhotp d c)
  | totp d w t => exact absurd rfl (htotp d w t)
  | verify d f w t c => exact absurd rfl (hverify d f w t c)
  | feed byte now => exact endsAlike_feed byte now s
  | tick now => exact endsAlike_tick now s
  | frame version cmd payload =>
    exact endsAlike_of_answered (fun _ => id) fun u _ => exec_frame version cmd payload u
  | status => exact endsAlike_status s

/-- No operation reads more than the three elements. -/
theorem endsAlike_of_sameElements (i : Instr) (s : State) : EndsAlike (SameElements s) i := by
  have hagree : ∀ u, SameElements s u → SameButSecretBytes s u := fun _ => SameElements.sameButSecretBytes
  have hother := endsAlike_of_sameButSecretBytes (i := i) s
  cases i with
  | hotp d counter =>
    obtain ⟨hcode, hparam, hnoSecret, -⟩ := hotpAnswersCode
    rcases exec_hotp_cases d counter s with ⟨hbad, -⟩ | ⟨⟨hlo, hhi⟩, hempty, -⟩ | ⟨⟨hlo, hhi⟩, hloaded, -⟩
    · exact endsAlike_of_answered hagree fun u _ => hparam d counter u hbad
    · exact endsAlike_of_answered hagree fun u ⟨_, _, hkey⟩ => hnoSecret d counter u hlo hhi (hkey.trans hempty)
    · exact endsAlike_of_answered hagree fun u ⟨_, _, hkey⟩ => hkey ▸ hcode d counter u hlo hhi (hkey ▸ hloaded)
  | totp d window time =>
    obtain ⟨hcode, hparam, hnoSecret, -⟩ := totpAnswersCode
    rcases exec_totp_cases d window time s with ⟨hbad, -⟩ | ⟨⟨hlo, hhi⟩, hpos, hempty, -⟩ |
      ⟨⟨hlo, hhi⟩, hpos, hloaded, -⟩
    · exact endsAlike_of_answered hagree fun u _ => hparam d window time u (or_assoc.mp hbad)
    · exact endsAlike_of_answered hagree fun u ⟨_, _, hkey⟩ =>
        hnoSecret d window time u hlo hhi hpos (hkey.trans hempty)
    · exact endsAlike_of_answered hagree fun u ⟨_, _, hkey⟩ =>
        hkey ▸ hcode d window time u hlo hhi hpos (hkey ▸ hloaded)
  | verify d flags window time code =>
    obtain ⟨hverdict, hparam, hnoAnswer, -⟩ := verifyAnswersVerdict
    rcases exec_verify_cases d flags window time code s with ⟨hbad, -⟩ | ⟨hlow, ⟨hlo, hhi⟩, hpos, hmissing, -⟩ |
      ⟨hone, ⟨hlo, hhi⟩, hpos, hloaded, -⟩
    · exact endsAlike_of_answered hagree fun u _ =>
        hparam d flags window time code u (hbad.imp_right or_assoc.mp)
    · exact endsAlike_of_answered hagree fun u ⟨_, _, hkey⟩ =>
        hnoAnswer d flags window time code u hlow hlo hhi hpos (hkey ▸ hmissing)
    · obtain rfl : flags = 1 := BitVec.eq_of_toNat_eq hone
      exact endsAlike_of_answered hagree fun u ⟨_, _, hkey⟩ =>
        hkey ▸ hverdict d window time code u hlo hhi hpos (hkey ▸ hloaded)
  | _ =>
    obtain ⟨rx, last, load, resp, hend⟩ := hother (by simp) (by simp) (by simp)
    exact ⟨rx, last, load, resp, fun u hu => hend u (hagree u hu)⟩

/-- Settles O12: states that differ only at the port have the same elements. -/
theorem operationsIgnorePortFields : Obligations.OperationsIgnorePortFields := by
  intro i s
  obtain ⟨rx, last, load, resp, hend⟩ := endsAlike_of_sameElements i s
  exact ⟨rx, last, load s.secret, resp, fun _ _ => hend _ ⟨rfl, rfl, rfl⟩⟩

/-- Settles O13: two secrets of one length are the same but for their bytes. -/
theorem secretBytesStayHidden : Obligations.SecretBytesStayHidden := by
  intro i s key hkey hhotp htotp hverify
  obtain ⟨rx, last, load, resp, hend⟩ := endsAlike_of_sameButSecretBytes s hhotp htotp hverify
  exact ⟨_, _, hend s ⟨rfl, rfl, rfl⟩, hend { s with secret := key } ⟨rfl, rfl, hkey⟩, rfl, rfl, rfl⟩

/-! ### Issuing an operation again (20_memory.md section 3) -/

/-- An operation that left the three elements as they were does the same again. -/
theorem exec_again_of_sameElements {i : Instr} {s t : State} (h : exec i s = .next t) (hsame : SameElements s t) :
    ∃ resp, t.responses = s.responses ++ [resp] ∧ exec i t = .next (answered t resp) := by
  obtain ⟨rx, last, load, resp, hend⟩ := endsAlike_of_sameElements i s
  obtain rfl : t = endedWith s rx last (load s.secret) resp :=
    Host.Outcome.next.inj (h.symm.trans (hend s ⟨rfl, rfl, rfl⟩))
  have hagain := hend _ hsame
  obtain ⟨-, -, hkey⟩ := hsame
  have hload : load (load s.secret) = load s.secret := congrArg load hkey
  refine ⟨resp, rfl, hagain.trans ?_⟩
  simp only [endedWith, answered, hload]

/-- A second LDSEC of the same text finds the secret that the first one left. -/
theorem exec_ldsec_again {text : List Byte} {s t : State} (h : exec (.ldsec text) s = .next t) :
    ∃ resp, t.responses = s.responses ++ [resp] ∧ exec (.ldsec text) t = .next (answered t resp) := by
  rcases Nat.lt_or_ge 256 text.length with hlong | hfits
  · cases h.symm.trans (exec_ldsec_of_gt hlong s)
    exact ⟨_, rfl, exec_ldsec_of_gt hlong _⟩
  · cases hdec : b32decode text with
    | none =>
      cases h.symm.trans (exec_ldsec_of_none hfits hdec s)
      exact ⟨_, rfl, exec_ldsec_of_none hfits hdec _⟩
    | some out =>
      cases h.symm.trans (exec_ldsec_of_some hfits hdec s)
      exact ⟨_, rfl, exec_ldsec_of_some hfits hdec _⟩

/-- A second TICK finds an empty buffer, or as little elapsed time as the first. -/
theorem exec_tick_again {now : Millis} {s t : State} (h : exec (.tick now) s = .next t) :
    exec (.tick now) t = .next (answered t [0x00, 0x00]) := by
  obtain ⟨-, hkeeps, -⟩ := tickClearsStalledFrame
  rcases exec_tick_cases now s with ⟨-, -, hend⟩ | ⟨hle, hend⟩ <;> cases h.symm.trans hend
  · exact hkeeps _ now (.inr rfl)
  · exact hkeeps _ now hle

/-- Settles O14: an operation other than FEED and TICK only answers, or it is LDSEC (`execAt_cases`). -/
theorem issuedTwiceChangesNothingMore : Obligations.IssuedTwiceChangesNothingMore := by
  refine ⟨fun i s t hfeed htick h => ?other, fun now s t h => exec_tick_again h⟩
  case other =>
    rcases execAt_cases Config.hardware i s hfeed htick with ⟨st, fields, hend⟩ | ⟨text, _, _, _, rfl, -⟩
    · rw [← exec_eq_execAt] at hend
      cases h.symm.trans hend
      exact exec_again_of_sameElements h ⟨rfl, rfl, rfl⟩
    · exact exec_ldsec_again h

/-! ### What an operation writes (10_state.md sections 2 and 3) -/

/-- Each element that an instruction changes is one it writes. -/
theorem writes_of_exec {i : Instr} {s t : State} (h : exec i s = .next t) :
    (t.rxBuf ≠ s.rxBuf → opcodeOfInstr i = .feed ∨ opcodeOfInstr i = .tick) ∧
    (t.rxLastMs ≠ s.rxLastMs → opcodeOfInstr i = .feed) ∧ (t.secret ≠ s.secret → opcodeOfInstr i = .ldsec) := by
  have hother := execAt_cases Config.hardware i s
  rw [← exec_eq_execAt] at hother
  cases i with
  | feed byte now =>
    rw [exec_feed_eq byte now s rfl] at h
    cases h
    exact ⟨fun _ => .inl rfl, fun _ => rfl, fun hne => absurd rfl hne⟩
  | tick now =>
    rcases exec_tick_cases now s with ⟨-, -, hend⟩ | ⟨-, hend⟩ <;> cases h.symm.trans hend <;>
      exact ⟨fun _ => .inr rfl, fun hne => absurd rfl hne, fun hne => absurd rfl hne⟩
  | _ =>
    rcases hother (by simp) (by simp) with ⟨st, fields, hend⟩ | ⟨_, _, _, _, hldsec, hend⟩ <;>
      cases h.symm.trans hend
    · exact ⟨fun hne => absurd rfl hne, fun hne => absurd rfl hne, fun hne => absurd rfl hne⟩
    · rw [hldsec]
      exact ⟨fun hne => absurd rfl hne, fun hne => absurd rfl hne, fun _ => rfl⟩

theorem inputIsResetOr_of_opcode {s : State} {rec : List Byte} {rest : List PortInput} {i : Instr} {ops : List Byte}
    (hport : s.pending = .record rec :: rest) (hdec : decode rec = .ok i) (hop : (opcodeOfInstr i).byte ∈ ops) :
    inputIsResetOr s ops := by
  obtain ⟨body, rfl⟩ := List.head?_eq_some_iff.mp (head?_of_decode_ok hdec)
  exact .inr ⟨_, body, rest, hop, hport⟩

/-- Settles O10: by what stands at the port; a record that decodes writes what its instruction does. -/
theorem writersOfEachElement : Obligations.WritersOfEachElement := by
  intro s t hstep
  cases hport : s.pending with
  | nil =>
    cases hstep.symm.trans (performInput_of_idle hport perform)
    exact ⟨fun hne => absurd rfl hne, fun hne => absurd rfl hne, fun hne => absurd rfl hne⟩
  | cons input rest =>
    cases input with
    | reset dropped =>
      have hreset : ∀ ops, inputIsResetOr s ops := fun _ => .inl ⟨dropped, rest, hport⟩
      exact ⟨fun _ => hreset _, fun _ => hreset _, fun _ => hreset _⟩
    | record rec =>
      cases hdec : decode rec with
      | error why =>
        cases hstep.symm.trans (step_of_reject hport hdec)
        exact ⟨fun hne => absurd rfl hne, fun hne => absurd rfl hne, fun hne => absurd rfl hne⟩
      | ok i =>
        rw [step_of_record hport, perform_of_ok hdec] at hstep
        obtain ⟨hbuf, hlast, hsecret⟩ := writes_of_exec hstep
        refine ⟨fun hne => inputIsResetOr_of_opcode hport hdec ?_, fun hne => inputIsResetOr_of_opcode hport hdec ?_,
          fun hne => inputIsResetOr_of_opcode hport hdec ?_⟩
        · rcases hbuf hne with hop | hop <;> rw [hop] <;> decide
        · rw [hlast hne]
          decide
        · rw [hsecret hne]
          decide

/-! ### The port (70_reset_and_hazards.md section 1) -/

/-- Settles O2: `step_of_reset`. -/
theorem resetInputClearsState : Obligations.ResetInputClearsState := fun _ _ _ hport => step_of_reset hport

/-- Settles O3: the record is performed from the state without it, and is its instruction. -/
theorem stepRunsDecodedRecord : Obligations.StepRunsDecodedRecord :=
  fun _ _ _ _ hport hdec => (step_of_record hport).trans (perform_of_ok hdec _)

/-- Settles O4: `performInput_of_idle`. -/
theorem idlePortKeepsState : Obligations.IdlePortKeepsState := fun _ hport => performInput_of_idle hport perform

/-! ### Runs (20_memory.md section 5, 70_reset_and_hazards.md section 5) -/

/-- A record is answered once, and its effect is the same whatever waits behind it. -/
theorem perform_answersOnce (rec : List Byte) (s : State) :
    ∃ (t : State) (resp : List Byte), t.responses = s.responses ++ [resp] ∧
      ∀ waiting, perform rec { s with pending := waiting } = .next { t with pending := waiting } := by
  cases hdec : decode rec with
  | error why => exact ⟨s.rejectRecord why, _, rfl, fun _ => perform_of_error hdec _⟩
  | ok i =>
    obtain ⟨rx, last, key, resp, hend⟩ := operationsIgnorePortFields i s
    exact ⟨endedWith s rx last key resp, resp, rfl, fun waiting =>
      (perform_of_ok hdec _).trans (hend waiting s.responses)⟩

theorem run_succ_of_step {k : Nat} {s t : State} (h : step s = .next t) :
    Host.Core.run core (k + 1) s = Host.Core.run core k t := by
  have hcore : core.step s = .next t := h
  simp only [Host.Core.run, hcore]

/-- A run is its first steps, then the rest from where they ended. -/
theorem run_add_of_run {m n : Nat} {s t : State} (h : Host.Core.run core m s = .next t) :
    Host.Core.run core (m + n) s = Host.Core.run core n t := by
  induction m generalizing s with
  | zero =>
    cases h
    rw [Nat.zero_add]
  | succ m ih =>
    rw [Nat.succ_add]
    cases hstep : step s with
    | next u =>
      rw [run_succ_of_step hstep] at h ⊢
      exact ih h
    | fault r => cases r
    | refused r =>
      have hcore : core.step s = .refused r := hstep
      simp [Host.Core.run, hcore] at h

/-- The records at the head of the port are performed in order, one response each, and the rest waits. -/
theorem run_records (recs : List (List Byte)) (s : State) :
    ∃ (t : State) (answers : List (List Byte)), answers.length = recs.length ∧
      t.responses = s.responses ++ answers ∧ ∀ waiting,
        Host.Core.run core recs.length { s with pending := recs.map .record ++ waiting } =
          .next { t with pending := waiting } := by
  induction recs generalizing s with
  | nil => exact ⟨s, [], rfl, (List.append_nil _).symm, fun _ => rfl⟩
  | cons rec recs ih =>
    obtain ⟨u, resp, hresp, hperform⟩ := perform_answersOnce rec s
    obtain ⟨t, answers, hlen, hanswers, hrun⟩ := ih u
    refine ⟨t, resp :: answers, by simp [hlen], by simp [hanswers, hresp], fun waiting => ?_⟩
    have hstep : step { s with pending := (rec :: recs).map .record ++ waiting } =
        .next { u with pending := recs.map .record ++ waiting } :=
      (step_of_record rfl).trans (hperform _)
    exact (run_succ_of_step hstep).trans (hrun waiting)

/-- Settles O11: the run of both sequences performs the first (`run_records`), and the second from where it ended. -/
theorem runsAreSequential : Obligations.RunsAreSequential := by
  intro first second s hidle
  obtain ⟨t, answers, hlen, hanswers, hrun⟩ := run_records first s
  have hissue : ∀ recs, s.issue recs = { s with pending := recs.map .record } := fun recs => by
    rw [State.issue, hidle, List.nil_append]
  refine ⟨{ t with pending := [] }, answers, ?first, rfl, hlen, hanswers, ?both⟩
  case first =>
    have hfirst := hrun []
    rw [List.append_nil] at hfirst
    exact (congrArg (Host.Core.run core first.length) (hissue first)).trans hfirst
  case both =>
    rw [runRecords, hissue, List.map_append, List.length_append]
    exact run_add_of_run (hrun _)

end Sys2Proof.Machine

/-! PROOF. Codes within a window, short codes and the codes VERIFY accepts (spec/41_hotp_totp.md R163 and R177,
spec/92_eei_decisions.md P1): settles O38, O43 and O59. -/

namespace Sys2Proof.Machine

open Sys2Proof Sys2Proof.Claims

/-! ### Decimal texts (R91) -/

/-- Digit d of a number is that digit of its last m digits, if there are so many. -/
theorem mod_pow_div_mod {m d : Nat} (h : d < m) (code : Nat) : code % 10 ^ m / 10 ^ d % 10 = code / 10 ^ d % 10 := by
  obtain ⟨e, rfl⟩ := Nat.exists_eq_add_of_lt h
  rw [show 10 ^ (d + e + 1) = 10 ^ d * (10 * 10 ^ e) by ring, Nat.mod_mul_right_div_self, Nat.mod_mul_right_mod]

/-- A text of d digits shows the code's last m digits only, for m at least d. -/
theorem decText_mod {d m : Nat} (h : d ≤ m) (code : Nat) : decText (code % 10 ^ m) d = decText code d := by
  induction d with
  | zero => rfl
  | succ d ih => rw [decText, mod_pow_div_mod h, ih (Nat.le_of_succ_le h), decText]

/-- A shorter text is the end of a longer one. -/
theorem decText_drop (code d k : Nat) : (decText code (d + k)).drop k = decText code d := by
  induction k with
  | zero => rfl
  | succ k ih => rw [← Nat.add_assoc, decText, List.drop_succ_cons, ih]

/-- Codes of at most d digits with one text are equal. -/
theorem decText_inj {code code' d : Nat} (h : code < 10 ^ d) (h' : code' < 10 ^ d) :
    decText code d = decText code' d ↔ code = code' := by
  refine ⟨fun htext => ?_, fun heq => heq ▸ rfl⟩
  have hvalue := decText_foldl code d 0
  rw [htext, decText_foldl, Nat.mod_eq_of_lt h, Nat.mod_eq_of_lt h'] at hvalue
  omega

/-! ### The laws of R163 -/

/-- The d-digit code is the 10-digit code reduced further. -/
theorem hotp_eq_mod {d : Nat} (h : d ≤ 10) (key : List Byte) (c : Nat) : hotp key c d = hotp key c 10 % 10 ^ d := by
  rw [hotp, hotp, Nat.mod_mod_of_dvd _ (Nat.pow_dvd_pow 10 h)]

theorem totp_congr_window {t t' w : Nat} (h : t / w = t' / w) (key : List Byte) (d : Nat) :
    totp key t w d = totp key t' w d := by
  rw [totp, h, totp]

/-- Settles O38: a code depends on the window's count alone, and reducing it keeps the digits that are shown. -/
theorem otpWindowAndSuffixLaws : Obligations.OtpWindowAndSuffixLaws := by
  refine ⟨fun key t t' w d h => totp_congr_window h key d, fun key c d _ hd => ⟨hotp_eq_mod hd key c, ?suffix⟩⟩
  case suffix =>
    have hdrop := decText_drop (hotp key c 10) d (10 - d)
    rw [Nat.add_sub_of_le hd] at hdrop
    rw [hotp_eq_mod hd, decText_mod le_rfl, hdrop]

/-! ### Verification (R177, P1) -/

theorem verdict_cases (p : Prop) [Decidable p] :
    (if p then 0x00 else 0x01 : Byte) = 0x00 ∨ (if p then 0x00 else 0x01 : Byte) = 0x01 := by
  by_cases h : p
  · exact .inl (if_pos h)
  · exact .inr (if_neg h)

theorem verdict_eq_zero_iff (p : Prop) [Decidable p] : (if p then 0x00 else 0x01 : Byte) = 0x00 ↔ p := by
  by_cases h : p <;> simp [h]

/-- Times of one window of w seconds are less than w apart. -/
theorem lt_add_of_div_eq {t t' w : Nat} (hw : 0 < w) (h : t / w = t' / w) : t < t' + w := by
  have ht := Nat.lt_mul_div_succ t hw
  have ht' := Nat.mul_div_le t' w
  rw [h, Nat.mul_succ] at ht
  omega

/-- Settles O43: VERIFY compares two texts of one width, which are equal exactly if the codes are. -/
theorem verifyAcceptsCodeOfSameWindow : Obligations.VerifyAcceptsCodeOfSameWindow := by
  intro s d window tm te hlo hhi hwindow hkey
  obtain ⟨hverdict, -⟩ := verifyAnswersVerdict
  have hbound : ∀ t, totp s.secret t window.toNat d.toNat < 10 ^ d.toNat :=
    fun t => Nat.mod_lt _ (Nat.pow_pos (by omega))
  have hequal := decText_inj (hbound tm.toNat) (hbound te.toNat)
  refine ⟨_, hverdict d window te _ s hlo hhi hwindow hkey, ?values, ?equalCodes, fun hsame => ?sameWindow,
    fun hw hsame => ?skew⟩
  case values => exact verdict_cases _
  case equalCodes => exact (verdict_eq_zero_iff _).trans hequal
  case sameWindow => exact if_pos (hequal.mpr (totp_congr_window hsame _ _))
  case skew =>
    subst hw
    exact ⟨Nat.le_of_lt_succ (lt_add_of_div_eq (by decide) hsame.symm),
      Nat.le_of_lt_succ (lt_add_of_div_eq (by decide) hsame)⟩

/-- The open digit count is a number below 10 and one more. -/
theorem unlockDigits_toNat : Config.unlockDigits.toNat = Config.unlockDigitsChoice.val + 1 := by
  have hlt := Config.unlockDigitsChoice.isLt
  rw [Config.unlockDigits, BitVec.toNat_ofNat, Nat.mod_eq_of_lt (by omega)]

/-- Settles O59: the digit count is legal, so VERIFY with its 300-second window ends in a verdict. -/
theorem unlockOfMcuIsAnswered : Obligations.UnlockOfMcuIsAnswered := by
  obtain ⟨hverdict, -⟩ := verifyAnswersVerdict
  have hlt := Config.unlockDigitsChoice.isLt
  have hlo : 1 ≤ Config.unlockDigits.toNat := by rw [unlockDigits_toNat]; omega
  have hhi : Config.unlockDigits.toNat ≤ 10 := by rw [unlockDigits_toNat]; omega
  refine ⟨hlo, hhi, fun s time code hkey => ⟨_, ?verdict, hverdict _ 300 time code s hlo hhi (by decide) hkey⟩⟩
  case verdict => exact verdict_cases _

end Sys2Proof.Machine

/-! PROOF. Sequences of FEEDs: loop-back, resynchronisation and error detection (spec/42_frame_codec.md R206, R212,
R214 and R216): settles O52, O53, O54 and O55. -/

namespace Sys2Proof.Machine

open Sys2Proof Sys2Proof.Claims

/-! ### Bytes that are all accepted (R203) -/

/-- Fed in order to a buffer, each of the bytes is one that R203 accepts. -/
def AcceptsAll (buf bytes : List Byte) : Prop :=
  ∀ n < bytes.length, acceptsByte (buf ++ bytes.take n) (byteAt bytes n)

theorem AcceptsAll.head {buf bytes : List Byte} {b : Byte} (h : AcceptsAll buf (b :: bytes)) : acceptsByte buf b := by
  have hfirst := h 0 (Nat.zero_lt_succ _)
  rwa [List.take_zero, List.append_nil] at hfirst

theorem AcceptsAll.tail {buf bytes : List Byte} {b : Byte} (h : AcceptsAll buf (b :: bytes)) :
    AcceptsAll (buf ++ [b]) bytes := by
  intro n hn
  have hnext := h (n + 1) (Nat.succ_lt_succ hn)
  rwa [List.take_succ_cons, List.append_cons] at hnext

/-- Accepted bytes stay in the buffer, each answers NONE, and the last one's clock sample is kept (R203, R208). -/
theorem execAll_feed_of_acceptsAll {bytes : List Byte} {times : List Millis} {s : State}
    (hlen : times.length = bytes.length) (h : AcceptsAll s.rxBuf bytes) :
    execAll (feedList (bytes.zip times)) s = .next { s with
      rxBuf := s.rxBuf ++ bytes
      rxLastMs := times.getLastD s.rxLastMs
      responses := s.responses ++ List.replicate bytes.length [0x00, 0x00] } := by
  induction bytes generalizing times s with
  | nil =>
    obtain rfl := List.eq_nil_of_length_eq_zero hlen
    simp [feedList]
  | cons b bytes ih =>
    obtain ⟨t, times, rfl⟩ := List.exists_cons_of_length_eq_add_one hlen
    have hrest := ih (s := { s with
      rxBuf := s.rxBuf ++ [b], rxLastMs := t, responses := s.responses ++ [[0x00, 0x00]] }) (Nat.succ.inj hlen) h.tail
    refine (execAll_cons_of_next (exec_feed_of_acceptsByte h.head t) _).trans (hrest.trans ?_)
    rw [List.getLastD_cons, List.length_cons, List.replicate_succ, List.append_assoc, List.append_assoc]
    rfl

/-- The bytes of a frame before its checksum: the fixed header, and as many payload bytes as the length field says
(R70, R74). -/
def IsFrameBody (body : List Byte) : Prop :=
  byteAt body 0 = 0x55 ∧ byteAt body 1 = 0xAA ∧ body.length = 6 + declaredLen body

theorem IsFrameBody.length_eq {body : List Byte} (h : IsFrameBody body) : body.length = 6 + declaredLen body := by
  obtain ⟨-, -, hlen⟩ := h
  exact hlen

theorem byteAt_take {l : List Byte} {n i : Nat} (h : i < n) : byteAt (l.take n) i = byteAt l i := by
  rw [byteAt, List.getD_eq_getElem?_getD, List.getElem?_take_of_lt h, ← List.getD_eq_getElem?_getD, byteAt]

theorem IsFrameBody.acceptsAll {body : List Byte} (h : IsFrameBody body) : AcceptsAll [] body := by
  obtain ⟨hfirst, hsecond, hlen⟩ := h
  intro n hn
  have hsofar : (body.take n).length = n := List.length_take_of_le hn.le
  rw [List.nil_append, acceptsByte, hsofar]
  have hplace : n = 0 ∨ n = 1 ∨ (2 ≤ n ∧ n ≤ 5) ∨ 6 ≤ n := by omega
  rcases hplace with rfl | rfl | hfields | hpayload
  · exact .inl ⟨rfl, hfirst⟩
  · exact .inr (.inl ⟨rfl, hsecond⟩)
  · exact .inr (.inr (.inl hfields))
  · refine .inr (.inr (.inr ⟨hpayload, ?_⟩))
    rw [byteAt_take (by omega), byteAt_take (by omega)]
    exact hn.trans_eq hlen

@[simp] theorem execAll_singleton (i : Instr) (s : State) : execAll [i] s = exec i s := by
  cases h : exec i s <;> simp [execAll, h]

/-- The last of the first n elements. -/
theorem getLastD_take {l : List Millis} {n : Nat} (hpos : 0 < n) (hn : n ≤ l.length) (d d' : Millis) :
    (l.take n).getLastD d = l.getD (n - 1) d' := by
  rw [List.getLastD_eq_getLast?, List.getLast?_eq_getElem?, List.length_take_of_le hn,
    List.getElem?_take_of_lt (by omega), List.getD_eq_getElem _ _ (by omega), List.getElem?_eq_getElem (by omega),
    Option.getD_some]

/-- Feeding a whole body to an empty buffer leaves the body there; the byte after it stands where the checksum does. -/
theorem execAll_feed_body_append {s : State} {body : List Byte} {times : List Millis} (hbuf : s.rxBuf = [])
    (hbody : IsFrameBody body) (htimes : times.length = body.length + 1) (b : Byte) :
    execAll (feedList ((body ++ [b]).zip times)) s = exec (.feed b (times.getD body.length 0)) { s with
      rxBuf := body
      rxLastMs := times.getD (body.length - 1) 0
      responses := s.responses ++ List.replicate body.length [0x00, 0x00] } := by
  have hinit : (times.take body.length).length = body.length := List.length_take_of_le (by omega)
  have hsplit : times = times.take body.length ++ [times.getD body.length 0] := by
    rw [List.getD_eq_getElem _ _ (by omega), List.take_concat_get', List.take_of_length_le (by omega)]
  have hlen := hbody.length_eq
  have haccepts : AcceptsAll s.rxBuf body := by
    rw [hbuf]
    exact hbody.acceptsAll
  have hfeeds : feedList ((body ++ [b]).zip times) =
      feedList (body.zip (times.take body.length)) ++ [.feed b (times.getD body.length 0)] := by
    conv_lhs => rw [hsplit, List.zip_append hinit.symm]
    exact List.map_append
  rw [hfeeds, execAll_append (execAll_feed_of_acceptsAll hinit haccepts), execAll_singleton, hbuf, List.nil_append,
    getLastD_take (by omega) (by omega) _ 0]

/-- A whole body and its checksum: the frame is handed on (R205). -/
theorem execAll_feed_validFrame {s : State} {body : List Byte} {times : List Millis} (hbuf : s.rxBuf = [])
    (hbody : IsFrameBody body) (htimes : times.length = body.length + 1) :
    execAll (feedList ((body ++ [byteSum body]).zip times)) s = .next { s with
      rxBuf := []
      rxLastMs := times.getD (body.length - 1) 0
      responses := s.responses ++ List.replicate body.length [0x00, 0x00] ++
        [[0x00, 0x01, byteAt body 2, byteAt body 3, byteAt body 4, byteAt body 5] ++ body.drop 6] } := by
  have hlen := hbody.length_eq
  exact (execAll_feed_body_append hbuf hbody htimes _).trans
    (exec_feed_of_validFrame (s := { s with rxBuf := body, rxLastMs := _, responses := _ }) (by simp only; omega)
      hlen rfl _)

/-- A whole body and another byte: the frame is dropped, and both checksums are reported (R207). -/
theorem execAll_feed_badChecksum {s : State} {body : List Byte} {times : List Millis} (hbuf : s.rxBuf = [])
    (hbody : IsFrameBody body) (htimes : times.length = body.length + 1) {c : Byte} (hc : c ≠ byteSum body) :
    execAll (feedList ((body ++ [c]).zip times)) s = .next { s with
      rxBuf := []
      rxLastMs := times.getD (body.length - 1) 0
      responses := s.responses ++ List.replicate body.length [0x00, 0x00] ++
        [[0x00, 0x02, c, byteSum body]] } := by
  have hlen := hbody.length_eq
  exact (execAll_feed_body_append hbuf hbody htimes _).trans
    (exec_feed_of_badChecksum (s := { s with rxBuf := body, rxLastMs := _, responses := _ }) (by simp only; omega)
      hlen hc _)

/-! ### Loop-back and resynchronisation (R212, R214) -/

theorem declaredLen_frameBody {version cmd : Byte} {payload : List Byte} (h : payload.length < 65536) :
    declaredLen (frameBody version cmd payload) = payload.length := by
  rw [frameBody_eq]
  change be16 (BitVec.ofNat 8 (payload.length / 256)) (BitVec.ofNat 8 (payload.length % 256)) = payload.length
  rw [be16, BitVec.toNat_ofNat, BitVec.toNat_ofNat]
  omega

@[simp] theorem frameBody_length (version cmd : Byte) (payload : List Byte) :
    (frameBody version cmd payload).length = 6 + payload.length := by
  simp [frameBody]
  omega

theorem isFrameBody_frameBody {version cmd : Byte} {payload : List Byte} (h : payload.length < 65536) :
    IsFrameBody (frameBody version cmd payload) :=
  ⟨rfl, rfl, by rw [frameBody_length, declaredLen_frameBody h]⟩

/-- FRAME_OK of a body is that of the frame it was built from, its length field the two bytes received (R86). -/
theorem frameOk_of_frameBody {version cmd : Byte} {payload body : List Byte}
    (hbody : body = frameBody version cmd payload) :
    [0x00, 0x01, byteAt body 2, byteAt body 3, byteAt body 4, byteAt body 5] ++ body.drop 6 =
      frameOkResponse version cmd payload := by
  rw [hbody, frameBody_eq, frameOkResponse, beBytes_two]
  rfl

/-- Settles O52: the body is accepted byte by byte, and the checksum completes the frame. -/
theorem loopBackDecodesFrame : Obligations.LoopBackDecodesFrame := by
  intro s version cmd payload times hpayload hbuf htimes
  have hbody := isFrameBody_frameBody (version := version) (cmd := cmd) hpayload
  have hlen := frameBody_length version cmd payload
  have hlast : 6 + payload.length - 1 = 5 + payload.length := by omega
  rw [frameBytes_eq, execAll_feed_validFrame hbuf hbody (by omega), hlen, hlast, frameOk_of_frameBody rfl]

/-- Without a byte 0x55, every byte fed to an empty buffer is refused at offset 0 (R206). -/
theorem execAll_feed_of_no_header {garbage : List (Byte × Millis)} {s : State} (hbuf : s.rxBuf = [])
    (h : ∀ p ∈ garbage, p.1 ≠ 0x55) : execAll (feedList garbage) s = .next { s with
      rxBuf := [], responses := s.responses ++ garbage.map (fun p => [0x00, 0x03, 0x00, p.1]) } := by
  induction garbage generalizing s with
  | nil => simp [feedList, ← hbuf]
  | cons p garbage ih =>
    obtain ⟨hp, hgarbage⟩ := List.forall_mem_cons.mp h
    have hlen : s.rxBuf.length = 0 := by rw [hbuf]; rfl
    have hrefused := exec_feed_of_badHeader (.inl ⟨hlen, hp⟩) p.2
    refine (execAll_cons_of_next hrefused _).trans ((ih rfl hgarbage).trans ?_)
    rw [hlen, List.map_cons, List.append_assoc]
    rfl

/-- Settles O53: the garbage leaves the buffer empty (`execAll_feed_of_no_header`), and loop-back starts there. -/
theorem garbageWithoutHeaderByteIsSkipped : Obligations.GarbageWithoutHeaderByteIsSkipped := by
  intro s garbage version cmd payload times hpayload hbuf htimes hgarbage
  rw [feedList, List.map_append]
  exact (execAll_append (execAll_feed_of_no_header hbuf hgarbage) _).trans
    (loopBackDecodesFrame _ version cmd payload times hpayload rfl htimes)

/-- Settles O54: the frame's 0x55 is refused at offset 1, and what follows holds no other. -/
theorem strayHeaderByteLosesFrame : Obligations.StrayHeaderByteLosesFrame := by
  intro s version cmd payload times hbuf htimes hrest
  have hlen : s.rxBuf.length = 1 := by rw [hbuf]; rfl
  obtain ⟨t, times, rfl⟩ := List.exists_cons_of_length_pos (l := times) (by omega)
  have hframe : (frameBytes version cmd payload).zip (t :: times) =
      (0x55, t) :: ((frameBytes version cmd payload).drop 1).zip times := rfl
  have hrestLen : ((frameBytes version cmd payload).drop 1).length ≤ times.length := by
    rw [List.length_cons] at htimes
    rw [List.length_drop, frameBytes_length]
    omega
  generalize (frameBytes version cmd payload).drop 1 = rest at *
  have hrefused := exec_feed_of_badHeader (byte := 0x55) (.inr ⟨hlen, by decide⟩) t
  have hgarbage : ∀ p ∈ rest.zip times, p.1 ≠ 0x55 := fun p hp heq => hrest (heq ▸ (List.of_mem_zip hp).1)
  have hanswers : (rest.zip times).map (fun p => [0x00, 0x03, 0x00, p.1]) =
      rest.map (fun b => [0x00, 0x03, 0x00, b]) := by
    conv_rhs => rw [← List.map_fst_zip hrestLen, List.map_map]
    rfl
  rw [hframe]
  refine (execAll_cons_of_next hrefused _).trans ((execAll_feed_of_no_header rfl hgarbage).trans ?_)
  rw [hanswers, hlen]
  rfl

/-! ### Error detection (R216) -/

theorem byteSum_append (a b : List Byte) : byteSum (a ++ b) = byteSum a + byteSum b := by
  simp [byteSum, BitVec.ofNat_add]

theorem byteSum_cons (x : Byte) (l : List Byte) : byteSum (x :: l) = x + byteSum l := by
  simp [byteSum, BitVec.ofNat_add]

/-- The checksum sees a change of any one byte (R216). -/
theorem byteSum_set_ne {l : List Byte} {j : Nat} {x : Byte} (hj : j < l.length) (hx : x ≠ byteAt l j) :
    byteSum (l.set j x) ≠ byteSum l := by
  have hl : l = l.take j ++ byteAt l j :: l.drop (j + 1) := by
    rw [← drop_eq_byteAt_cons hj, List.take_append_drop]
  rw [List.set_eq_take_append_cons_drop, if_pos hj]
  conv_rhs => rw [hl]
  rw [byteSum_append, byteSum_append, byteSum_cons, byteSum_cons]
  simpa using hx

/-- Inverting a bit of a byte changes the byte. -/
theorem xor_bit_ne (b : Byte) {k : Nat} (hk : k < 8) : b ^^^ ((1 : Byte) <<< k) ≠ b := by
  intro h
  have hbit := congrArg (fun x => x.getLsbD k) h
  simp [hk] at hbit

theorem byteAt_set_ne {l : List Byte} {i j : Nat} (h : j ≠ i) (x : Byte) : byteAt (l.set j x) i = byteAt l i := by
  rw [byteAt, List.getD_eq_getElem?_getD, List.getElem?_set_ne h, ← List.getD_eq_getElem?_getD, byteAt]

/-- A change outside the fixed header and the length field leaves a body a body. -/
theorem IsFrameBody.set {body : List Byte} (h : IsFrameBody body) {j : Nat} (hj : j = 2 ∨ j = 3 ∨ 6 ≤ j) (x : Byte) :
    IsFrameBody (body.set j x) := by
  have hkept : ∀ i, i = 0 ∨ i = 1 ∨ i = 4 ∨ i = 5 → byteAt (body.set j x) i = byteAt body i :=
    fun i hi => byteAt_set_ne (by omega) x
  obtain ⟨hfirst, hsecond, hlen⟩ := h
  refine ⟨by rw [hkept 0 (by simp), hfirst], by rw [hkept 1 (by simp), hsecond], ?_⟩
  rw [declaredLen, hkept 4 (by simp), hkept 5 (by simp), List.length_set, hlen, declaredLen]

/-- A frame with one bit inverted outside the fixed header and the length field is still a whole body and one byte
after it, but that byte is not the body's checksum. -/
theorem flipBit_frameBytes_eq {version cmd : Byte} {payload : List Byte} {j k : Nat} (hpayload : payload.length < 65536)
    (hk : k < 8) (hj : j = 2 ∨ j = 3 ∨ (6 ≤ j ∧ j ≤ 6 + payload.length)) :
    ∃ body c, flipBit (frameBytes version cmd payload) j k = body ++ [c] ∧ IsFrameBody body ∧
      body.length = 6 + payload.length ∧ c ≠ byteSum body := by
  have hbody := isFrameBody_frameBody (version := version) (cmd := cmd) hpayload
  have hlen := frameBody_length version cmd payload
  rw [flipBit, frameBytes_eq]
  generalize frameBody version cmd payload = body at *
  rcases Nat.lt_or_ge j body.length with hin | hpast
  · rw [List.set_append_left _ _ hin, byteAt_append_left hin]
    refine ⟨_, _, rfl, hbody.set (by omega) _, by rw [List.length_set, hlen], ?_⟩
    exact (byteSum_set_ne hin (xor_bit_ne _ hk)).symm
  · have hlast : j = body.length := by omega
    refine ⟨body, byteSum body ^^^ ((1 : Byte) <<< k), ?_, hbody, hlen, xor_bit_ne _ hk⟩
    subst hlast
    rw [List.set_append_right _ _ le_rfl, byteAt, List.getD_append_right _ _ _ _ le_rfl, Nat.sub_self,
      List.set_cons_zero, List.getD_cons_zero]

/-- A byte refused at offset 0 of an empty buffer (R206). -/
theorem execAll_feed_bad_first {s : State} {b : Byte} (hbuf : s.rxBuf = []) (hb : b ≠ 0x55) (t : Millis) :
    execAll (feedList [(b, t)]) s = .next { s with
      rxBuf := [], responses := s.responses ++ [[0x00, 0x03, 0x00, b]] } :=
  execAll_feed_of_no_header hbuf (by simpa using hb)

/-- A byte refused at offset 1, after the 0x55 that was accepted (R206). -/
theorem execAll_feed_bad_second {s : State} {b : Byte} (hbuf : s.rxBuf = []) (hb : b ≠ 0xAA) (t t' : Millis) :
    execAll (feedList [(0x55, t), (b, t')]) s = .next { s with
      rxBuf := [], rxLastMs := t, responses := s.responses ++ [[0x00, 0x00]] ++ [[0x00, 0x03, 0x01, b]] } := by
  have hlen : s.rxBuf.length = 0 := by rw [hbuf]; rfl
  have haccepted := exec_feed_of_acceptsByte (s := s) (byte := 0x55) (.inl ⟨hlen, rfl⟩) t
  rw [hbuf] at haccepted
  refine (execAll_cons_of_next haccepted _).trans ((execAll_singleton _ _).trans ?_)
  exact exec_feed_of_badHeader (.inr ⟨rfl, hb⟩) t'

/-- Settles O55: outside the header and the length field by `flipBit_frameBytes_eq`; a changed header byte is
refused. -/
theorem singleBitErrorsAreDetected : Obligations.SingleBitErrorsAreDetected := by
  refine ⟨fun s version cmd payload bytes times j k hpayload hbuf htimes hk hj hbytes => ?checksum,
    fun s version cmd payload bytes times j k hbuf htimes hk hj hbytes => ?header⟩
  case checksum =>
    obtain ⟨body, c, hflip, hbody, hlen, hc⟩ := flipBit_frameBytes_eq (version := version) (cmd := cmd) hpayload hk hj
    have hlast : byteAt bytes (6 + payload.length) = c := by
      rw [hbytes, hflip, byteAt, List.getD_append_right _ _ _ _ hlen.le, hlen, Nat.sub_self, List.getD_cons_zero]
    have hinit : bytes.take (6 + payload.length) = body := by rw [hbytes, hflip, List.take_left' hlen]
    have hindex : body.length - 1 = 5 + payload.length := by omega
    rw [hlast, hinit]
    refine ⟨hc, ?_⟩
    rw [hbytes, hflip, execAll_feed_badChecksum hbuf hbody (by omega) hc, hindex, hlen]
  case header =>
    subst hbytes
    have hplace : j = 0 ∨ j = 1 := by omega
    rcases hplace with rfl | rfl
    · obtain ⟨t, rfl⟩ := List.length_eq_one_iff.mp htimes
      rw [List.replicate_zero, List.append_nil]
      exact execAll_feed_bad_first hbuf (xor_bit_ne 0x55 hk) t
    · obtain ⟨t, t', rfl⟩ := List.length_eq_two.mp htimes
      exact execAll_feed_bad_second hbuf (xor_bit_ne 0xAA hk) t t'

end Sys2Proof.Machine

/-! PROOF. What the assembler accepts fits the records (spec/30_encoding.md section 5, R92 and R93): settles O58. -/

namespace Sys2Proof.Machine

open Sys2Proof

/-! ### Parsers whose instruction is well formed -/

/-- If the parser accepts, its instruction fits its record. -/
def GivesWellFormed (o : Option Instr) : Prop := ∀ i, o = some i → i.WellFormed = true

theorem givesWellFormed_none : GivesWellFormed none := nofun

theorem givesWellFormed_pure {i : Instr} (h : i.WellFormed = true) : GivesWellFormed (pure i) := by
  intro j hj
  cases hj
  exact h

/-- What is parsed first does not matter, if every rest gives a well-formed instruction. -/
theorem givesWellFormed_bind {α : Type} {o : Option α} {f : α → Option Instr} (h : ∀ a, GivesWellFormed (f a)) :
    GivesWellFormed (o >>= f) := by
  cases o with
  | none => exact givesWellFormed_none
  | some a => exact h a

theorem fitBytes_eq_some {w : Nat} {bs out : List Byte} (h : fitBytes w bs = some out) : out.length < 2 ^ w := by
  rw [fitBytes] at h
  split_ifs at h with hfits
  cases h
  exact hfits

/-- A string operand that was accepted is as short as its length field can say. -/
theorem givesWellFormed_bind_fitBytes {w : Nat} {bs : List Byte} {f : List Byte → Option Instr}
    (h : ∀ out, out.length < 2 ^ w → GivesWellFormed (f out)) : GivesWellFormed (fitBytes w bs >>= f) := by
  cases hfit : fitBytes w bs with
  | none => exact givesWellFormed_none
  | some out => exact h out (fitBytes_eq_some hfit)

theorem parseHotp_wellFormed (ts : List Token) : GivesWellFormed (parseHotp ts) := by
  refine givesWellFormed_bind fun ⟨_, _⟩ => givesWellFormed_bind fun ⟨_, ts⟩ => ?_
  rcases ts with _ | _
  · exact givesWellFormed_bind fun _ => givesWellFormed_bind fun _ => givesWellFormed_pure rfl
  · exact givesWellFormed_none

theorem parseTotp_wellFormed (ts : List Token) : GivesWellFormed (parseTotp ts) := by
  refine givesWellFormed_bind fun ⟨_, _⟩ => givesWellFormed_bind fun ⟨_, _⟩ => givesWellFormed_bind fun ⟨_, ts⟩ => ?_
  rcases ts with _ | _
  · exact givesWellFormed_bind fun _ => givesWellFormed_bind fun _ => givesWellFormed_bind fun _ =>
      givesWellFormed_pure rfl
  · exact givesWellFormed_none

theorem parseVerify_wellFormed (ts : List Token) : GivesWellFormed (parseVerify ts) := by
  refine givesWellFormed_bind fun ⟨_, _⟩ => givesWellFormed_bind fun ⟨_, _⟩ => givesWellFormed_bind fun ⟨_, _⟩ =>
    givesWellFormed_bind fun ⟨_, ts⟩ => ?_
  dsimp only
  split
  · exact givesWellFormed_bind fun _ => givesWellFormed_bind fun _ => givesWellFormed_bind fun _ =>
      givesWellFormed_bind fun _ => givesWellFormed_bind_fitBytes fun _ hcode =>
        givesWellFormed_pure (decide_eq_true hcode)
  · exact givesWellFormed_none

theorem parseUnlock_wellFormed (ts : List Token) : GivesWellFormed (parseUnlock ts) := by
  refine givesWellFormed_bind fun ⟨_, _⟩ => givesWellFormed_bind fun ⟨_, _⟩ => givesWellFormed_bind fun ⟨_, ts⟩ => ?_
  dsimp only
  split
  · exact givesWellFormed_bind fun _ => givesWellFormed_bind fun _ => givesWellFormed_bind fun _ =>
      givesWellFormed_bind_fitBytes fun _ hcode => givesWellFormed_pure (decide_eq_true hcode)
  · exact givesWellFormed_none

theorem parseFrame_wellFormed (ts : List Token) : GivesWellFormed (parseFrame ts) := by
  refine givesWellFormed_bind fun ⟨_, _⟩ => givesWellFormed_bind fun ⟨_, ts⟩ => ?_
  dsimp only
  split
  · exact givesWellFormed_bind fun _ => givesWellFormed_bind fun _ => givesWellFormed_bind_fitBytes fun _ hpayload =>
      givesWellFormed_pure (decide_eq_true hpayload)
  · exact givesWellFormed_none

theorem parseReply_wellFormed (ts : List Token) : GivesWellFormed (parseReply ts) := by
  refine givesWellFormed_bind fun ⟨_, ts⟩ => ?_
  dsimp only
  split
  · exact givesWellFormed_bind fun _ => givesWellFormed_bind_fitBytes fun _ hpayload =>
      givesWellFormed_pure (decide_eq_true hpayload)
  · exact givesWellFormed_none

theorem parseFeed_wellFormed (ts : List Token) : GivesWellFormed (parseFeed ts) := by
  unfold parseFeed
  split
  · exact givesWellFormed_bind fun _ => givesWellFormed_bind fun _ => givesWellFormed_pure rfl
  · exact givesWellFormed_none

theorem parseTick_wellFormed (ts : List Token) : GivesWellFormed (parseTick ts) := by
  unfold parseTick
  split
  · exact givesWellFormed_bind fun _ => givesWellFormed_pure rfl
  · exact givesWellFormed_none

theorem length_lt_of_parseHexOnly {ts : List Token} {bs : List Byte} (h : parseHexOnly ts = some bs) :
    bs.length < 65536 := by
  unfold parseHexOnly at h
  split at h
  · exact fitBytes_eq_some h
  · cases h

theorem length_lt_of_parseTextOnly {ts : List Token} {bs : List Byte} (h : parseTextOnly ts = some bs) :
    bs.length < 65536 := by
  unfold parseTextOnly at h
  split at h
  · exact fitBytes_eq_some h
  · cases h

/-! ### Lines and texts -/

/-- If the text is accepted, each of its instructions fits its record. -/
def AllWellFormed (o : Option (List Instr)) : Prop := ∀ is, o = some is → ∀ i ∈ is, i.WellFormed = true

theorem allWellFormed_none : AllWellFormed none := nofun

theorem allWellFormed_some {is : List Instr} (h : ∀ i ∈ is, i.WellFormed = true) : AllWellFormed (some is) := by
  intro is' his
  cases his
  exact h

theorem allWellFormed_ite {p : Prop} [Decidable p] {a b : Option (List Instr)} (ha : AllWellFormed a)
    (hb : AllWellFormed b) : AllWellFormed (if p then a else b) := by
  by_cases h : p
  · rwa [if_pos h]
  · rwa [if_neg h]

/-- A line of one instruction. -/
theorem allWellFormed_map {α : Type} {o : Option α} {f : α → Instr} (h : ∀ a, o = some a → (f a).WellFormed = true) :
    AllWellFormed (o.map fun a => [f a]) := by
  cases o with
  | none => exact allWellFormed_none
  | some a => exact allWellFormed_some (by simpa using h a rfl)

/-- FEEDS writes FEED records alone, which have no variable part. -/
theorem feeds_wellFormed (bytes : List Byte) (t s : Millis) : ∀ i ∈ feeds bytes t s, i.WellFormed = true := by
  induction bytes generalizing t with
  | nil => nofun
  | cons b bytes ih => exact List.forall_mem_cons.mpr ⟨rfl, ih (t + s)⟩

theorem parseFeeds_wellFormed (ts : List Token) : AllWellFormed (parseFeeds ts) := by
  unfold parseFeeds
  split
  · intro is his
    obtain ⟨t, -, rfl⟩ := Option.map_eq_some_iff.mp his
    exact feeds_wellFormed _ _ _
  · intro is his
    obtain ⟨t, -, hstep⟩ := Option.bind_eq_some_iff.mp his
    obtain ⟨s, -, rfl⟩ := Option.map_eq_some_iff.mp hstep
    exact feeds_wellFormed _ _ _
  · exact allWellFormed_none

/-- Every mnemonic and pseudo-instruction, in the order in which a line is compared with them. -/
theorem parseLine_wellFormed (ts : List Token) : AllWellFormed (parseLine ts) := by
  unfold parseLine
  split
  case h_1 => exact allWellFormed_some nofun
  case h_3 => exact allWellFormed_none
  case h_2 m ts =>
    refine allWellFormed_ite (allWellFormed_map fun _ h => decide_eq_true (length_lt_of_parseHexOnly h)) ?_
    refine allWellFormed_ite (allWellFormed_map fun _ h => decide_eq_true (length_lt_of_parseTextOnly h)) ?_
    refine allWellFormed_ite (allWellFormed_map fun _ h => decide_eq_true (length_lt_of_parseTextOnly h)) ?_
    refine allWellFormed_ite (allWellFormed_map (parseHotp_wellFormed ts)) ?_
    refine allWellFormed_ite (allWellFormed_map (parseTotp_wellFormed ts)) ?_
    refine allWellFormed_ite (allWellFormed_map (parseVerify_wellFormed ts)) ?_
    refine allWellFormed_ite (allWellFormed_map (parseFeed_wellFormed ts)) ?_
    refine allWellFormed_ite (allWellFormed_map (parseTick_wellFormed ts)) ?_
    refine allWellFormed_ite (allWellFormed_map (parseFrame_wellFormed ts)) ?_
    refine allWellFormed_ite (allWellFormed_ite (allWellFormed_some (by decide)) allWellFormed_none) ?_
    refine allWellFormed_ite (parseFeeds_wellFormed ts) ?_
    refine allWellFormed_ite (allWellFormed_map (parseUnlock_wellFormed ts)) ?_
    exact allWellFormed_ite (allWellFormed_map (parseReply_wellFormed ts)) allWellFormed_none

theorem assembleLine_wellFormed (line : List Char) : AllWellFormed (assembleLine line) := by
  intro is his
  obtain ⟨ts, -, hparse⟩ := Option.bind_eq_some_iff.mp his
  exact parseLine_wellFormed ts is hparse

theorem assembleLines_wellFormed (lines : List (List Char)) : AllWellFormed (assembleLines lines) := by
  induction lines with
  | nil => exact allWellFormed_some nofun
  | cons line lines ih =>
    intro is his
    rw [assembleLines] at his
    cases hline : assembleLine line with
    | none => simp [hline] at his
    | some here =>
      simp only [hline] at his
      obtain ⟨rest, hrest, rfl⟩ := Option.map_eq_some_iff.mp his
      exact List.forall_mem_append.mpr ⟨assembleLine_wellFormed line here hline, ih rest hrest⟩

/-- Settles O58: line by line (`assembleLines_wellFormed`); no byte gives no FEED. -/
theorem assembledInstructionsAreWellFormed : Obligations.AssembledInstructionsAreWellFormed := by
  refine ⟨fun src => assembleLines_wellFormed (splitLines src.toList), fun t ht => ?empty⟩
  case empty =>
    rw [parseFeeds, fit_of_lt ht]
    rfl

end Sys2Proof.Machine
